-- ==== Sys2Proof/Word.lean ====
section
/-! DEFINITION. The value types of the hardware (spec/00_scope.md R6, R9, R10). Every value is unsigned and bit 0 is the
least significant bit; a general register is a `Byte`, an address-sized cell a `Word`, and a register operand names one of
the sixteen registers. -/

namespace Sys2Proof

/-- One 8-bit cell: a general register, a memory byte, a timer, an `nn` immediate (R6 `XLEN`, R22). -/
abbrev Byte := BitVec 8

/-- One 16-bit cell: `pc`, `I`, a call-stack entry, an instruction word (R6, R26, R27, R28, R70). -/
abbrev Word := BitVec 16

/-- A 4-bit field of an instruction word (R13 "Nibble", R71). -/
abbrev Nibble := BitVec 4

/-- The 12-bit address immediate `nnn` (R71, R73). -/
abbrev Addr12 := BitVec 12

/-- The index of a general register, 0 to 15 (R21). -/
abbrev RegIdx := Fin 16

end Sys2Proof
end

