-- ==== Sys2Proof/Config.lean ====
section
/-! DEFINITION. The parameters of spec/00_scope.md R6, each with the value the spec gives it, and the one free value of
the hardware, the random byte (spec/10_state.md R36, spec/40_step_cycle.md R95). -/

namespace Sys2Proof.Config

/-- `MEM_SIZE` (R6): bytes of memory. -/
@[simp] abbrev memSize : Nat := 4096

/-- `PROGRAM_BASE` (R6): address of the first byte of the program image. -/
@[simp] abbrev programBase : Nat := 0x200

/-- `ROM_MAX` (R6): the longest program image. -/
@[simp] abbrev romMax : Nat := 3584

/-- `RESET_PC` (R6, R39): the program counter after construction. -/
@[simp] abbrev resetPc : Word := 0x200#16

/-- `INSTR_BYTES` (R6, R70): the length of every instruction, as the amount `pc` advances by. -/
@[simp] abbrev instrBytes : Word := 2#16

/-- `FB_WIDTH` (R6, R7): framebuffer columns. -/
@[simp] abbrev fbWidth : Nat := 64

/-- `FB_HEIGHT` (R6, R7): framebuffer rows. -/
@[simp] abbrev fbHeight : Nat := 32

/-- The pixels of one sprite row (R151: a sprite row is 8 pixels). -/
@[simp] abbrev spriteWidth : Nat := 8

/-- `FLAG_REG` (R6, R24): `VF`, the flag register. -/
@[simp] abbrev flagReg : RegIdx := 15

/-- `V0` (R23, R104): the offset register of BNNN. -/
@[simp] abbrev offsetReg : RegIdx := 0

/-- `SHL_FLAG_RAW` (R6, R139): whether 8XYE writes the raw bit 0x80 to `VF` instead of 1. The spec's default is false;
it is a build-time constant of the engine and no register (R29). Log entry 3. -/
def shlFlagRaw : Bool := false

/-- The `k`-th byte the host's random source supplies (R36, R95: "any value 0..255, under no law"). A FREE VALUE: it has
no body, so no proof can lean on a value of it. Log entry 1. -/
opaque randomByte : Nat → Byte

end Sys2Proof.Config
end

