-- ==== Sys2Proof/Machine/State.lean ====
section
/-! DEFINITION. The architectural state of one engine (spec/10_state.md R20), the ways a step ends without a next state
(spec/60_exceptions.md R170), and the state after construction (R37, R38, R39). -/

namespace Sys2Proof.Machine

/-- Memory as the list of its cells that do not hold 0, addresses strictly rising. An address it does not list reads as 0,
which is the content construction gives every byte outside the image (R37, R51). -/
abbrev Memory := List Host.Cell

/-- The framebuffer: 2048 one-bit cells in the flat layout of R30, "stride = width, index = y*width + x". Cell `(x, y)` is
bit `y * 64 + x`, and a bit that is 1 is a cell that is `true` (on). -/
abbrev Framebuffer := BitVec 2048

/-- The state of one engine: the tuple of R20, and the model's own two fields for the random input of a step (R36, R95,
log entry 1). -/
structure State where
  /-- `V0` to `VF` (R21); `VF` is also the flag register (R24). -/
  V : Vector Byte 16
  /-- The index register (R27). -/
  I : Word
  /-- The program counter (R26). -/
  pc : Word
  /-- The call stack (R28), the top of the stack first. -/
  stack : List Word
  /-- The framebuffer (R30). -/
  fb : Framebuffer
  /-- Memory (R34, R50). -/
  mem : Memory
  /-- The delay timer (R33). -/
  DT : Byte
  /-- The sound timer (R33). -/
  ST : Byte
  /-- THE MODEL'S OWN FIELD: the byte the random source supplies to the next CXNN (R95). -/
  rand8 : Byte
  /-- THE MODEL'S OWN FIELD: how many bytes of the random source CXNN has used up. -/
  draws : Nat
  deriving DecidableEq, Repr

/-- The four faults (R170). Each ends the run: a fault has no successor state (R172), so none of them is unsafe beyond what
its log entry says. -/
inductive Fault where
  /-- "decoded instruction has no handler" (R160, R176). Raised by `step` for a word that matches no row of R74. Safe: the
  spec names this fault for those words (log entry 4). -/
  | unimplementedOpcode
  /-- "return executed with an empty CallStack" (R174). Raised by 00EE. Safe: the spec names this fault. -/
  | stackUnderflow
  /-- "fetch, sprite read, or any address computation references memory beyond 0–4095" (R173). Raised by `step` at fetch
  and by DXYN. Safe: the spec names this fault. -/
  | memoryOutOfBounds
  /-- "ROM image exceeds available memory" (R175). Raised by `construct`. Safe: the spec names this fault. -/
  | constructionOversize
  deriving DecidableEq, Repr

/-- The reasons an operation is refused. -/
inductive Refusal where
  /-- Raised by no arm: every instruction of the table has its meaning. Safe: a refusal proves nothing. -/
  | notModelled (mnemonic : String)
  /-- Raised by the host operations on an engine that has faulted: "the engine accepts no further `step` and no timer
  decrement" (R172). Safe: the operation is refused as the spec says. -/
  | engineFaulted
  deriving DecidableEq, Repr

/-- The engine after construction from an empty image (R37, R38, R39): every cell zero, nothing on the stack, `pc` at
0x200. The random byte is the source's first, a free value (log entry 1). -/
def State.reset : State where
  V := Vector.replicate 16 0#8
  I := 0#16
  pc := Config.resetPc
  stack := []
  fb := 0#2048
  mem := []
  DT := 0#8
  ST := 0#8
  rand8 := Config.randomByte 0
  draws := 0

end Sys2Proof.Machine
end

