-- ==== Sys2Proof/Machine/Flags.lean ====
section
/-! DEFINITION. The values that the flag-producing instructions write to `VF` (spec/10_state.md R24, spec/43_alu_8xy.md R135
to R139). Each is a function of the operands before any write. -/

namespace Sys2Proof.Machine

/-- `c ? 1 : 0`. -/
def flagOf (c : Bool) : Byte := if c then 1#8 else 0#8

/-- The 9-bit sum of R135: `zext_9(a) + zext_9(b)`, 0 to 510. -/
def wideSum (a b : Byte) : BitVec 9 := a.setWidth 9 + b.setWidth 9

/-- 8XY4: 1 when the 9-bit sum exceeds 255 (R135). -/
def carryFlag (a b : Byte) : Byte := flagOf (decide (255 < (wideSum a b).toNat))

/-- 8XY5 and 8XY7: 1 when the minuend `a` is strictly greater than the subtrahend `b`, unsigned (R136, R138, R140). -/
def greaterFlag (a b : Byte) : Byte := flagOf (decide (b.toNat < a.toNat))

/-- 8XY6: bit 0, the bit shifted out (R137). -/
def lowBitFlag (a : Byte) : Byte := a &&& 1#8

/-- 8XYE: bit 7, the bit shifted out, as 0 or 1, or as 0x00 or 0x80 when `raw` is the value of `SHL_FLAG_RAW` (R139). -/
def highBitFlag (raw : Bool) (a : Byte) : Byte := if raw then a &&& 0x80#8 else (a >>> 7) &&& 1#8

end Sys2Proof.Machine
end

