-- ==== Sys2Proof/Syntax.lean ====
section
/-! DEFINITION. The instruction set: one constructor for each row of spec/opcode_table.json (spec/30_encoding.md R74, and
the two RESERVED rows of spec/45_reserved_groups.md R161), and the names under which decoding refuses a word. -/

namespace Sys2Proof

/-- One constructor for each row of spec/opcode_table.json, in the table's order. -/
inductive Instr where
  /-- 00E0, `CLS` (R150). -/
  | cls
  /-- 00EE, `RET` (R100). -/
  | ret
  /-- 1NNN, `JP nnn` (R101). -/
  | jp (nnn : Addr12)
  /-- 2NNN, `CALL nnn` (R102). -/
  | call (nnn : Addr12)
  /-- 3XNN, `SE Vx, nn` (R105). -/
  | seImm (x : RegIdx) (nn : Byte)
  /-- 4XNN, `SNE Vx, nn` (R106). -/
  | sneImm (x : RegIdx) (nn : Byte)
  /-- 5XY0, `SE Vx, Vy` (R107). -/
  | seReg (x y : RegIdx)
  /-- 6XNN, `LD Vx, nn` (R120). -/
  | ldImm (x : RegIdx) (nn : Byte)
  /-- 7XNN, `ADD Vx, nn` (R121). -/
  | addImm (x : RegIdx) (nn : Byte)
  /-- 8XY0, `LD Vx, Vy` (R131). -/
  | ldReg (x y : RegIdx)
  /-- 8XY1, `OR Vx, Vy` (R132). -/
  | orReg (x y : RegIdx)
  /-- 8XY2, `AND Vx, Vy` (R133). -/
  | andReg (x y : RegIdx)
  /-- 8XY3, `XOR Vx, Vy` (R134). -/
  | xorReg (x y : RegIdx)
  /-- 8XY4, `ADD Vx, Vy` (R135). -/
  | addReg (x y : RegIdx)
  /-- 8XY5, `SUB Vx, Vy` (R136). -/
  | subReg (x y : RegIdx)
  /-- 8XY6, `SHR Vx` (R137). The field `y` is carried so that no bit of the word is lost; nothing reads it (R76). -/
  | shr (x y : RegIdx)
  /-- 8XY7, `SUBN Vx, Vy` (R138). -/
  | subnReg (x y : RegIdx)
  /-- 8XYE, `SHL Vx` (R139). The field `y` is carried so that no bit of the word is lost; nothing reads it (R76). -/
  | shl (x y : RegIdx)
  /-- 9XY0, `SNE Vx, Vy` (R108). -/
  | sneReg (x y : RegIdx)
  /-- ANNN, `LD I, nnn` (R122). -/
  | ldI (nnn : Addr12)
  /-- BNNN, `JP V0, nnn` (R104). -/
  | jpV0 (nnn : Addr12)
  /-- CXNN, `RND Vx, nn` (R123). -/
  | rnd (x : RegIdx) (nn : Byte)
  /-- DXYN, `DRW Vx, Vy, n` (R151). -/
  | drw (x y : RegIdx) (n : Nibble)
  /-- EXXX, the RESERVED row of group E: every word of it is illegal (R161). `low` is bits 11 to 0. -/
  | illegalGroupE (low : Addr12)
  /-- FXXX, the RESERVED row of group F: every word of it is illegal (R161). `low` is bits 11 to 0. -/
  | illegalGroupF (low : Addr12)
  deriving DecidableEq, Repr

/-- Why the decoder gives no instruction: the spaces of spec/30_encoding.md R77 that no row of the opcode table covers,
and a byte sequence that holds no whole instruction. -/
inductive Reject where
  /-- Fewer than the two bytes of an instruction (R70). -/
  | truncated
  /-- Group 0, not 0x00E0 and not 0x00EE (R77). -/
  | noHandlerGroup0
  /-- Group 5 with `n` not 0 (R77). -/
  | noHandlerGroup5
  /-- Group 8 with `n` in 8, 9, A, B, C, D, F (R77). -/
  | noHandlerGroup8
  /-- Group 9 with `n` not 0 (R77). -/
  | noHandlerGroup9
  deriving DecidableEq, Repr

end Sys2Proof
end

