-- ==== Sys2Proof/WellFormed.lean ====
section
/-! DEFINITION. What the types leave to check: which terms of `Instr` are instructions of the hardware (spec/30_encoding.md
R74), and which byte sequences are program images (spec/70_reset_and_hazards.md R201). Operand ranges need no check: a
register operand, an `nn`, an `nnn` and an `n` each have a type of exactly the width of their field (R71, R73). -/

namespace Sys2Proof

/-- Whether the term is one of the 23 instructions of R74. The two reserved rows are not: "all 4096 words 0xE000 to 0xEFFF
and all 4096 words 0xF000 to 0xFFFF" are illegal (R161). -/
def Instr.wellFormed : Instr → Bool
  | .cls => true
  | .ret => true
  | .jp _ => true
  | .call _ => true
  | .seImm _ _ => true
  | .sneImm _ _ => true
  | .seReg _ _ => true
  | .ldImm _ _ => true
  | .addImm _ _ => true
  | .ldReg _ _ => true
  | .orReg _ _ => true
  | .andReg _ _ => true
  | .xorReg _ _ => true
  | .addReg _ _ => true
  | .subReg _ _ => true
  | .shr _ _ => true
  | .subnReg _ _ => true
  | .shl _ _ => true
  | .sneReg _ _ => true
  | .ldI _ => true
  | .jpV0 _ => true
  | .rnd _ _ => true
  | .drw _ _ _ => true
  | .illegalGroupE _ => false
  | .illegalGroupF _ => false

/-- A program image: "any length up to `4096 − 0x200` bytes is valid" (R201). -/
def romWellFormed (rom : List Byte) : Bool :=
  decide (rom.length ≤ Config.romMax)

end Sys2Proof
end

