-- ==== Sys2Proof/Decode.lean ====
section
/-! DEFINITION. Decoding and encoding (spec/30_encoding.md R70 to R84), both written from the spec's field layout and
opcode map. The decoder is total on words and on byte sequences and refuses by name. -/

namespace Sys2Proof

/-! ### The six fields of a word (R71) -/

/-- `first`, bits 15-12. -/
def fieldFirst (w : Word) : Nibble := w.extractLsb' 12 4

/-- `x`, bits 11-8. -/
def fieldX (w : Word) : RegIdx := ⟨(w.extractLsb' 8 4).toNat, (w.extractLsb' 8 4).isLt⟩

/-- `y`, bits 7-4. -/
def fieldY (w : Word) : RegIdx := ⟨(w.extractLsb' 4 4).toNat, (w.extractLsb' 4 4).isLt⟩

/-- `n`, bits 3-0. -/
def fieldN (w : Word) : Nibble := w.extractLsb' 0 4

/-- `nn`, bits 7-0. -/
def fieldNn (w : Word) : Byte := w.extractLsb' 0 8

/-- `nnn`, bits 11-0. -/
def fieldNnn (w : Word) : Addr12 := w.extractLsb' 0 12

/-! ### The decoder (R84) -/

/-- Group 0 is decided by all sixteen bits (R75): 0x00E0 and 0x00EE, and nothing else. -/
def decodeGroup0 (w : Word) : Except Reject Instr :=
  if w = 0x00E0#16 then .ok .cls
  else if w = 0x00EE#16 then .ok .ret
  else .error .noHandlerGroup0

/-- Group 8 is decided by `n` (R75). -/
def decodeGroup8 (w : Word) : Except Reject Instr :=
  match fieldN w with
  | 0x0#4 => .ok (.ldReg (fieldX w) (fieldY w))
  | 0x1#4 => .ok (.orReg (fieldX w) (fieldY w))
  | 0x2#4 => .ok (.andReg (fieldX w) (fieldY w))
  | 0x3#4 => .ok (.xorReg (fieldX w) (fieldY w))
  | 0x4#4 => .ok (.addReg (fieldX w) (fieldY w))
  | 0x5#4 => .ok (.subReg (fieldX w) (fieldY w))
  | 0x6#4 => .ok (.shr (fieldX w) (fieldY w))
  | 0x7#4 => .ok (.subnReg (fieldX w) (fieldY w))
  | 0xE#4 => .ok (.shl (fieldX w) (fieldY w))
  | _ => .error .noHandlerGroup8

/-- The decoder of R84, total on all 65536 words. Groups E and F decode to the table's two reserved rows (R161), whose
meaning is the fault of R160; the illegal words of groups 0, 5, 8 and 9 are refused by name (R77). -/
def decodeWord (w : Word) : Except Reject Instr :=
  match fieldFirst w with
  | 0x0#4 => decodeGroup0 w
  | 0x1#4 => .ok (.jp (fieldNnn w))
  | 0x2#4 => .ok (.call (fieldNnn w))
  | 0x3#4 => .ok (.seImm (fieldX w) (fieldNn w))
  | 0x4#4 => .ok (.sneImm (fieldX w) (fieldNn w))
  | 0x5#4 => if fieldN w = 0x0#4 then .ok (.seReg (fieldX w) (fieldY w)) else .error .noHandlerGroup5
  | 0x6#4 => .ok (.ldImm (fieldX w) (fieldNn w))
  | 0x7#4 => .ok (.addImm (fieldX w) (fieldNn w))
  | 0x8#4 => decodeGroup8 w
  | 0x9#4 => if fieldN w = 0x0#4 then .ok (.sneReg (fieldX w) (fieldY w)) else .error .noHandlerGroup9
  | 0xA#4 => .ok (.ldI (fieldNnn w))
  | 0xB#4 => .ok (.jpV0 (fieldNnn w))
  | 0xC#4 => .ok (.rnd (fieldX w) (fieldNn w))
  | 0xD#4 => .ok (.drw (fieldX w) (fieldY w) (fieldN w))
  | 0xE#4 => .ok (.illegalGroupE (fieldNnn w))
  | _ => .ok (.illegalGroupF (fieldNnn w))

/-- The word of two consecutive bytes, big-endian (R53): the first byte is bits 15-8. -/
def wordOfBytes (hi lo : Byte) : Word := hi ++ lo

/-- The first byte of a word as it is stored (R53, R82). -/
def highByte (w : Word) : Byte := w.extractLsb' 8 8

/-- The second byte of a word as it is stored (R53, R82). -/
def lowByte (w : Word) : Byte := w.extractLsb' 0 8

/-- The decoder on bytes: every instruction is two bytes, high byte first (R70), and what follows is left over. -/
def decodeBytes : List Byte → Except Reject (Instr × List Byte)
  | hi :: lo :: rest =>
    match decodeWord (wordOfBytes hi lo) with
    | .ok i => .ok (i, rest)
    | .error r => .error r
  | [_] => .error .truncated
  | [] => .error .truncated

/-! ### The opcode map as a table (R74) -/

/-- One row of R74: a word `w` selects the row when `w AND mask = value`. -/
structure OpcodeRow where
  mask : Word
  value : Word
  deriving DecidableEq, Repr

/-- Whether the word selects the row (R74). -/
def OpcodeRow.selects (r : OpcodeRow) (w : Word) : Bool := w &&& r.mask == r.value

/-- The mask and match columns of R74 for each constructor; for the two reserved rows, those of spec/opcode_table.json. -/
def Instr.row : Instr → OpcodeRow
  | .cls => ⟨0xFFFF, 0x00E0⟩
  | .ret => ⟨0xFFFF, 0x00EE⟩
  | .jp _ => ⟨0xF000, 0x1000⟩
  | .call _ => ⟨0xF000, 0x2000⟩
  | .seImm _ _ => ⟨0xF000, 0x3000⟩
  | .sneImm _ _ => ⟨0xF000, 0x4000⟩
  | .seReg _ _ => ⟨0xF00F, 0x5000⟩
  | .ldImm _ _ => ⟨0xF000, 0x6000⟩
  | .addImm _ _ => ⟨0xF000, 0x7000⟩
  | .ldReg _ _ => ⟨0xF00F, 0x8000⟩
  | .orReg _ _ => ⟨0xF00F, 0x8001⟩
  | .andReg _ _ => ⟨0xF00F, 0x8002⟩
  | .xorReg _ _ => ⟨0xF00F, 0x8003⟩
  | .addReg _ _ => ⟨0xF00F, 0x8004⟩
  | .subReg _ _ => ⟨0xF00F, 0x8005⟩
  | .shr _ _ => ⟨0xF00F, 0x8006⟩
  | .subnReg _ _ => ⟨0xF00F, 0x8007⟩
  | .shl _ _ => ⟨0xF00F, 0x800E⟩
  | .sneReg _ _ => ⟨0xF00F, 0x9000⟩
  | .ldI _ => ⟨0xF000, 0xA000⟩
  | .jpV0 _ => ⟨0xF000, 0xB000⟩
  | .rnd _ _ => ⟨0xF000, 0xC000⟩
  | .drw _ _ _ => ⟨0xF000, 0xD000⟩
  | .illegalGroupE _ => ⟨0xF000, 0xE000⟩
  | .illegalGroupF _ => ⟨0xF000, 0xF000⟩

/-- The 23 rows of R74, in its order. -/
def opcodeMap : List OpcodeRow :=
  [⟨0xFFFF, 0x00E0⟩, ⟨0xFFFF, 0x00EE⟩, ⟨0xF000, 0x1000⟩, ⟨0xF000, 0x2000⟩, ⟨0xF000, 0x3000⟩, ⟨0xF000, 0x4000⟩,
   ⟨0xF00F, 0x5000⟩, ⟨0xF000, 0x6000⟩, ⟨0xF000, 0x7000⟩]
  ++ [⟨0xF00F, 0x8000⟩, ⟨0xF00F, 0x8001⟩, ⟨0xF00F, 0x8002⟩, ⟨0xF00F, 0x8003⟩, ⟨0xF00F, 0x8004⟩, ⟨0xF00F, 0x8005⟩,
      ⟨0xF00F, 0x8006⟩, ⟨0xF00F, 0x8007⟩, ⟨0xF00F, 0x800E⟩]
  ++ [⟨0xF00F, 0x9000⟩, ⟨0xF000, 0xA000⟩, ⟨0xF000, 0xB000⟩, ⟨0xF000, 0xC000⟩, ⟨0xF000, 0xD000⟩]

/-- "A word that matches no row of rule R74 is not an instruction" (R77, R160). -/
def legalWord (w : Word) : Bool := opcodeMap.any (·.selects w)

/-! ### The encoder (R72, R74) -/

/-- The 4-bit field that names a register (R21, R71). -/
def regField (x : RegIdx) : Nibble := BitVec.ofNat 4 x.val

/-- Format NNN (R72): `first` literal, `nnn`. -/
def formatNnn (first : Nibble) (nnn : Addr12) : Word := first ++ nnn

/-- Format XNN (R72): `first` literal, `x`, `nn`. -/
def formatXnn (first : Nibble) (x : RegIdx) (nn : Byte) : Word := first ++ (regField x ++ nn)

/-- Formats XY and XYN (R72): `first` literal, `x`, `y`, and `n`, a literal in XY and an operand in XYN. -/
def formatXyn (first : Nibble) (x y : RegIdx) (n : Nibble) : Word := first ++ (regField x ++ (regField y ++ n))

/-- The word of an instruction (R72, R74). -/
def encode : Instr → Word
  | .cls => 0x00E0
  | .ret => 0x00EE
  | .jp nnn => formatNnn 0x1 nnn
  | .call nnn => formatNnn 0x2 nnn
  | .seImm x nn => formatXnn 0x3 x nn
  | .sneImm x nn => formatXnn 0x4 x nn
  | .seReg x y => formatXyn 0x5 x y 0x0
  | .ldImm x nn => formatXnn 0x6 x nn
  | .addImm x nn => formatXnn 0x7 x nn
  | .ldReg x y => formatXyn 0x8 x y 0x0
  | .orReg x y => formatXyn 0x8 x y 0x1
  | .andReg x y => formatXyn 0x8 x y 0x2
  | .xorReg x y => formatXyn 0x8 x y 0x3
  | .addReg x y => formatXyn 0x8 x y 0x4
  | .subReg x y => formatXyn 0x8 x y 0x5
  | .shr x y => formatXyn 0x8 x y 0x6
  | .subnReg x y => formatXyn 0x8 x y 0x7
  | .shl x y => formatXyn 0x8 x y 0xE
  | .sneReg x y => formatXyn 0x9 x y 0x0
  | .ldI nnn => formatNnn 0xA nnn
  | .jpV0 nnn => formatNnn 0xB nnn
  | .rnd x nn => formatXnn 0xC x nn
  | .drw x y n => formatXyn 0xD x y n
  | .illegalGroupE low => formatNnn 0xE low
  | .illegalGroupF low => formatNnn 0xF low

/-- The bytes of an instruction as an image holds them: "its high byte then its low byte" (R82). -/
def encodeBytes (i : Instr) : List Byte := [highByte (encode i), lowByte (encode i)]

/-! ### The table's numbering of bits -/

/-- The instruction whose bits are `w`, bit 0 the least significant bit of the (one) instruction word. Bits above
`nbits` are 0. -/
def tableWord (nbits w : Nat) : Word := BitVec.ofNat 16 (w % 2 ^ nbits)

/-- What the decoder reads from the bytes of `tableWord nbits w`, laid out high byte first (R53). -/
def decodeTableWord (nbits w : Nat) : Option Instr :=
  match decodeBytes [highByte (tableWord nbits w), lowByte (tableWord nbits w)] with
  | .ok (i, _) => some i
  | .error _ => none

end Sys2Proof
end

