-- ==== Sys2Proof/Machine/Ops.lean ====
section
/-! DEFINITION. The named operations over registers, memory, the call stack, the framebuffer and the random input: the
pseudocode primitives of spec/00_scope.md R11, the fetch of spec/40_step_cycle.md R91, the raising of a fault
(spec/60_exceptions.md R171, R172) and the sprite loop of spec/44_display.md R151. Every meaning is written over these. -/

namespace Sys2Proof.Machine

/-! ### Ending an operation -/

/-- `raise F` (R11): the operation ends with the fault and there is no successor state. It is the hardware's one way of
taking an exception: nothing is saved, nothing vectors and nothing returns from it (R171, R172, R179). -/
def raise (f : Fault) : Host.Outcome State Fault Refusal := .fault f

/-- The outcome of a computation that may raise a fault on its way to the next state. -/
def finish : Except Fault State → Host.Outcome State Fault Refusal
  | .ok s => .next s
  | .error f => raise f

/-! ### General registers (R11, R21) -/

/-- `V[k]`. -/
def getV (s : State) (k : RegIdx) : Byte := s.V[k.val]

/-- `V[k] <- b`. There is no read-only and no hardwired register (R21, R23). -/
def setV (s : State) (k : RegIdx) (b : Byte) : State := { s with V := s.V.set k.val b }

/-- A write of the flag register by an instruction that produces a flag (R24). -/
def setFlag (s : State) (b : Byte) : State := setV s Config.flagReg b

/-- `I <- a` (R11). -/
def setI (s : State) (a : Word) : State := { s with I := a }

/-! ### Program counter (R26) -/

/-- `pc <- target`: the target is not checked, masked or aligned here (R109). -/
def setPc (s : State) (target : Word) : State := { s with pc := target }

/-- `pc <- pc + 2`: the advance of fetch (R91) and of a taken skip (R14 "Skip"). -/
def advancePc (s : State) : State := setPc s (s.pc + Config.instrBytes)

/-- A conditional skip: `pc` advances by a further 2 when the condition holds (R105 to R108). -/
def skipIf (c : Bool) (s : State) : State := if c then advancePc s else s

/-! ### Call stack (R28) -/

/-- `push(a)`: the stack has no capacity limit (R28, R102). -/
def push (s : State) (a : Word) : State := { s with stack := a :: s.stack }

/-- `pop()`: the top of the stack and the state without it, and nothing when the stack is empty. -/
def pop (s : State) : Option (Word × State) :=
  match s.stack with
  | [] => none
  | a :: rest => some (a, { s with stack := rest })

/-! ### Memory (R50, R54) -/

/-- The canonical form from address `lo` on: addresses strictly rising and inside memory, no entry that is 0. -/
def Memory.wfFrom (lo : Nat) : Memory → Bool
  | [] => true
  | (a, b) :: m => decide (lo ≤ a) && decide (a < Config.memSize) && !(b == 0#8) && Memory.wfFrom (a + 1) m

/-- The canonical form of a memory: two memories in it that read alike are equal. -/
def Memory.wf (m : Memory) : Bool := Memory.wfFrom 0 m

/-- The byte at an address: 0 where the memory lists nothing (R37). -/
def Memory.read : Memory → Nat → Byte
  | [], _ => 0#8
  | (a, b) :: m, addr => if addr = a then b else Memory.read m addr

/-- The memory with `b` at `addr`, in canonical form. -/
def Memory.insert : Memory → Nat → Byte → Memory
  | [], addr, b => if b = 0#8 then [] else [(addr, b)]
  | (a, c) :: m, addr, b =>
    if addr < a then (if b = 0#8 then (a, c) :: m else (addr, b) :: (a, c) :: m)
    else if addr = a then (if b = 0#8 then m else (addr, b) :: m)
    else (a, c) :: Memory.insert m addr b

/-- `Mem[addr] <- b`. No instruction writes memory (R56); construction and the placing of a word to be fetched do. There is
no cell above 4095 to write (R50). -/
def Memory.write (m : Memory) (addr : Nat) (b : Byte) : Memory :=
  if addr < Config.memSize then Memory.insert m addr b else m

/-- The cells of the bytes placed from address `addr` on (R37: `Mem[0x200 + k] = rom[k]`). -/
def Memory.ofBytes : Nat → List Byte → Memory
  | _, [] => []
  | addr, b :: bs => if b = 0#8 then Memory.ofBytes (addr + 1) bs else (addr, b) :: Memory.ofBytes (addr + 1) bs

/-- `MemRead(addr, 1)`: the byte, or `MemoryOutOfBounds` above 4095 (R11, R54). -/
def memRead1 (s : State) (addr : Nat) : Except Fault Byte :=
  if addr < Config.memSize then .ok (s.mem.read addr) else .error .memoryOutOfBounds

/-- `MemRead(addr, 2)`: two bytes, big-endian, and the whole access is out of bounds when either byte is (R11, R53, R54). -/
def memRead2 (s : State) (addr : Nat) : Except Fault Word :=
  if addr + 1 < Config.memSize then .ok (wordOfBytes (s.mem.read addr) (s.mem.read (addr + 1)))
  else .error .memoryOutOfBounds

/-- Fetch (R91): the bounds check, the big-endian read at `pc`, and the advance of `pc` by 2 before anything executes. -/
def fetch (s : State) : Except Fault (Word × State) :=
  match memRead2 s s.pc.toNat with
  | .ok w => .ok (w, advancePc s)
  | .error f => .error f

/-- The word at `pc`, high byte first, so that the next fetch reads it. -/
def placeWordAtPc (s : State) (w : Word) : State :=
  { s with mem := (s.mem.write s.pc.toNat (highByte w)).write (s.pc.toNat + 1) (lowByte w) }

/-- Executing a word that no row of R74 matches raises `UnimplementedOpcode` before anything is written (R160). -/
def illegalOpcode (_s : State) : Host.Outcome State Fault Refusal := raise .unimplementedOpcode

/-! ### Random input (R36, R95; log entry 1) -/

/-- The state with `r` as the byte the random source supplies: the `rand8` of `step(rand8)`. -/
def supplyRand (r : Byte) (s : State) : State := { s with rand8 := r }

/-- The supplied byte is used up and the source supplies its next, a free value. -/
def nextRand (s : State) : State :=
  { s with rand8 := Config.randomByte (s.draws + 1), draws := s.draws + 1 }

/-! ### Framebuffer (R30, R31) -/

/-- "index = y*width + x" (R30). -/
def cellIndex (x y : Nat) : Nat := y * Config.fbWidth + x

/-- `fb[x, y]`. -/
def getCell (s : State) (x y : Nat) : Bool := s.fb.getLsbD (cellIndex x y)

/-- `fb[x, y] <- b`. -/
def setCell (s : State) (x y : Nat) (b : Bool) : State :=
  { s with fb := if getCell s x y = b then s.fb else s.fb ^^^ BitVec.twoPow 2048 (cellIndex x y) }

/-- Every cell false (R150). -/
def clearFb (s : State) : State := { s with fb := 0#2048 }

/-- A set sprite bit on a cell: the cell is inverted, and `VF` becomes 1 when it was on (R151 step 3b, R153). -/
def plotPixel (x y : Nat) (s : State) : State :=
  let old := getCell s x y
  let s' := setCell s x y (!old)
  if old then setFlag s' 1#8 else s'

/-- The remaining `left` pixels of one sprite row, from column `col` of the sprite on: bit 7 first, and the row stops at
the right edge (R151 steps 3a and 3c, R152, R155). -/
def plotRow (b : Byte) (x0 y : Nat) : Nat → Nat → State → State
  | 0, _, s => s
  | left + 1, col, s =>
    if Config.fbWidth ≤ x0 + col then s
    else plotRow b x0 y left (col + 1)
      (if b.getLsbD (Config.spriteWidth - 1 - col) then plotPixel (x0 + col) y s else s)

/-- The remaining `left` rows of a sprite, from its row `row` on: the height test, then the read of `Mem[I + row]`, then
the plotting (R151 step 3, R154, R156). -/
def drawRows (x0 y0 : Nat) : Nat → Nat → State → Except Fault State
  | 0, _, s => .ok s
  | left + 1, row, s =>
    if Config.fbHeight ≤ y0 + row then .ok s
    else match memRead1 s (s.I.toNat + row) with
      | .error f => .error f
      | .ok b => drawRows x0 y0 left (row + 1) (plotRow b x0 (y0 + row) Config.spriteWidth 0 s)

end Sys2Proof.Machine
end

