-- ==== Sys2Proof/Machine/Operands.lean ====
section
/-! DEFINITION. The operand forms of the instruction set (spec/30_encoding.md R72, R73): every immediate is unsigned and is
used as it stands, and a register operand is `V[x]` or `V[y]` (`getV` of Ops.lean). -/

namespace Sys2Proof.Machine

/-- `nnn` as an address: zero-extended to the 16 bits of `pc` and `I` (R73). -/
def addrOperand (nnn : Addr12) : Word := nnn.setWidth 16

/-- A register as an address offset: `zext_16(V[k])` (R104). -/
def offsetOperand (s : State) (k : RegIdx) : Word := (getV s k).setWidth 16

/-- The target of BNNN: `nnn + zext_16(V[0])`, "not reduced modulo 4096" (R104). -/
def indexedTarget (s : State) (nnn : Addr12) : Word := addrOperand nnn + offsetOperand s Config.offsetReg

/-- The column of a sprite's left edge: `Vx mod width`, "wrap only at the starting corner" (R157). -/
def spriteColumn (s : State) (x : RegIdx) : Nat := (getV s x).toNat % Config.fbWidth

/-- The row of a sprite's top edge: `Vy mod height` (R157). -/
def spriteRow (s : State) (y : RegIdx) : Nat := (getV s y).toNat % Config.fbHeight

/-- The number of sprite rows: `n`, 0 to 15 (R73, R158). -/
def rowCount (n : Nibble) : Nat := n.toNat

end Sys2Proof.Machine
end

