-- ==== Sys2Proof/Machine/Alu.lean ====
section
/-! DEFINITION. The register-to-register group: 8XY0 to 8XY7 and 8XYE (spec/43_alu_8xy.md). The five flag-producing
instructions write the flag into `VF` first and the result into `Vx` second, and the result is computed from the register
file that already holds the new flag, but for 8XY4, whose sum is computed before either write (R130). -/

namespace Sys2Proof.Machine

/-- 8XY0 (R131): `V[x] <- V[y]`. -/
def execLdReg (x y : RegIdx) (s : State) : Host.Outcome State Fault Refusal :=
  .next (setV s x (getV s y))

/-- 8XY1 (R132): `V[x] <- V[x] OR V[y]`; `VF` is not written. -/
def execOrReg (x y : RegIdx) (s : State) : Host.Outcome State Fault Refusal :=
  .next (setV s x (getV s x ||| getV s y))

/-- 8XY2 (R133): `V[x] <- V[x] AND V[y]`; `VF` is not written. -/
def execAndReg (x y : RegIdx) (s : State) : Host.Outcome State Fault Refusal :=
  .next (setV s x (getV s x &&& getV s y))

/-- 8XY3 (R134): `V[x] <- V[x] XOR V[y]`; `VF` is not written. -/
def execXorReg (x y : RegIdx) (s : State) : Host.Outcome State Fault Refusal :=
  .next (setV s x (getV s x ^^^ getV s y))

/-- 8XY4 (R135): both operands are read before any write; `V[0xF] <- carry`, then `V[x] <- sum mod 256`. -/
def execAddReg (x y : RegIdx) (s : State) : Host.Outcome State Fault Refusal :=
  let sum := wideSum (getV s x) (getV s y)
  .next (setV (setFlag s (carryFlag (getV s x) (getV s y))) x (sum.setWidth 8))

/-- 8XY5 (R136): `V[0xF] <- (V[x] > V[y])`, then `V[x] <- V[x] - V[y]` on the registers after the flag write. -/
def execSubReg (x y : RegIdx) (s : State) : Host.Outcome State Fault Refusal :=
  let s' := setFlag s (greaterFlag (getV s x) (getV s y))
  .next (setV s' x (getV s' x - getV s' y))

/-- 8XY6 (R137): `V[0xF] <- V[x] AND 1`, then `V[x] <- V[x] >> 1` on the registers after the flag write. `Vy` is neither
read nor written (R76). -/
def execShr (x _y : RegIdx) (s : State) : Host.Outcome State Fault Refusal :=
  let s' := setFlag s (lowBitFlag (getV s x))
  .next (setV s' x (getV s' x >>> 1))

/-- 8XY7 (R138): `V[0xF] <- (V[y] > V[x])`, then `V[x] <- V[y] - V[x]` on the registers after the flag write. -/
def execSubnReg (x y : RegIdx) (s : State) : Host.Outcome State Fault Refusal :=
  let s' := setFlag s (greaterFlag (getV s y) (getV s x))
  .next (setV s' x (getV s' y - getV s' x))

/-- The shift of 8XYE with `raw` as `SHL_FLAG_RAW` (R139). -/
def shiftLeft (raw : Bool) (x : RegIdx) (s : State) : State :=
  let s' := setFlag s (highBitFlag raw (getV s x))
  setV s' x (getV s' x <<< 1)

/-- 8XYE (R139): `V[0xF] <- V[x]` bit 7, then `V[x] <- V[x] << 1` on the registers after the flag write. `Vy` is neither
read nor written (R76). -/
def execShl (x _y : RegIdx) (s : State) : Host.Outcome State Fault Refusal :=
  .next (shiftLeft Config.shlFlagRaw x s)

end Sys2Proof.Machine
end

