-- ==== Sys2Proof/Machine/ControlFlow.lean ====
section
/-! DEFINITION. The control transfers: 00EE, 1NNN, 2NNN, BNNN, 3XNN, 4XNN, 5XY0, 9XY0 (spec/41_control_flow.md). Every
meaning runs after fetch: on entry `pc` is the address of the instruction plus 2. No target is checked here (R109). -/

namespace Sys2Proof.Machine

/-- 00EE (R100): `StackUnderflow` on an empty stack, else `pc <- pop()`. -/
def execRet (s : State) : Host.Outcome State Fault Refusal :=
  match pop s with
  | none => raise .stackUnderflow
  | some (a, s') => .next (setPc s' a)

/-- 1NNN (R101): `pc <- nnn`. -/
def execJp (nnn : Addr12) (s : State) : Host.Outcome State Fault Refusal :=
  .next (setPc s (addrOperand nnn))

/-- 2NNN (R102): `push(pc); pc <- nnn`, where `pc` is the address of the instruction after the call. -/
def execCall (nnn : Addr12) (s : State) : Host.Outcome State Fault Refusal :=
  .next (setPc (push s s.pc) (addrOperand nnn))

/-- BNNN (R104): `pc <- nnn + zext_16(V[0])`. -/
def execJpV0 (nnn : Addr12) (s : State) : Host.Outcome State Fault Refusal :=
  .next (setPc s (indexedTarget s nnn))

/-- 3XNN (R105): skip when `V[x] == nn`. -/
def execSeImm (x : RegIdx) (nn : Byte) (s : State) : Host.Outcome State Fault Refusal :=
  .next (skipIf (getV s x == nn) s)

/-- 4XNN (R106): skip when `V[x] != nn`. -/
def execSneImm (x : RegIdx) (nn : Byte) (s : State) : Host.Outcome State Fault Refusal :=
  .next (skipIf (getV s x != nn) s)

/-- 5XY0 (R107): skip when `V[x] == V[y]`. -/
def execSeReg (x y : RegIdx) (s : State) : Host.Outcome State Fault Refusal :=
  .next (skipIf (getV s x == getV s y) s)

/-- 9XY0 (R108): skip when `V[x] != V[y]`. -/
def execSneReg (x y : RegIdx) (s : State) : Host.Outcome State Fault Refusal :=
  .next (skipIf (getV s x != getV s y) s)

end Sys2Proof.Machine
end

