-- ==== Sys2Proof/Machine/Display.lean ====
section
/-! DEFINITION. The two instructions that write the framebuffer: 00E0 and DXYN (spec/44_display.md). -/

namespace Sys2Proof.Machine

/-- 00E0 (R150): every cell false; `VF` is not written. -/
def execCls (s : State) : Host.Outcome State Fault Refusal :=
  .next (clearFb s)

/-- DXYN (R151): the start coordinates are read first (R157), then `VF <- 0`, then the rows are drawn. -/
def execDrw (x y : RegIdx) (n : Nibble) (s : State) : Host.Outcome State Fault Refusal :=
  finish (drawRows (spriteColumn s x) (spriteRow s y) (rowCount n) 0 (setFlag s 0#8))

end Sys2Proof.Machine
end

