-- ==== Sys2Proof/Machine/LoadImmediate.lean ====
section
/-! DEFINITION. The immediate loads and the immediate add: 6XNN, 7XNN, ANNN, CXNN (spec/42_load_immediate.md). Every meaning
runs after fetch, so `pc` already holds the address of the next instruction (R93), and writes only what its rule names
(spec/00_scope.md R12). -/

namespace Sys2Proof.Machine

/-- 6XNN (R120): `V[x] <- nn`. -/
def execLdImm (x : RegIdx) (nn : Byte) (s : State) : Host.Outcome State Fault Refusal :=
  .next (setV s x nn)

/-- 7XNN (R121): `V[x] <- (V[x] + nn) mod 256`; `VF` is not written. -/
def execAddImm (x : RegIdx) (nn : Byte) (s : State) : Host.Outcome State Fault Refusal :=
  .next (setV s x (getV s x + nn))

/-- ANNN (R122): `I <- zext_16(nnn)`. -/
def execLdI (nnn : Addr12) (s : State) : Host.Outcome State Fault Refusal :=
  .next (setI s (addrOperand nnn))

/-- CXNN (R123): `V[x] <- rand8 AND nn`, with the byte supplied for this step (R95). -/
def execRnd (x : RegIdx) (nn : Byte) (s : State) : Host.Outcome State Fault Refusal :=
  .next (nextRand (setV s x (s.rand8 &&& nn)))

end Sys2Proof.Machine
end

