-- ==== Sys2Proof/Machine/Reserved.lean ====
section
/-! DEFINITION. The two reserved rows of the opcode table (spec/45_reserved_groups.md R160, R161): "Groups E and F are wholly
illegal", and executing one of their words raises `UnimplementedOpcode`. -/

namespace Sys2Proof.Machine

/-- EXXX (R160, R161): `raise UnimplementedOpcode`, always. -/
def execIllegalGroupE (_low : Addr12) (s : State) : Host.Outcome State Fault Refusal :=
  illegalOpcode s

/-- FXXX (R160, R161): `raise UnimplementedOpcode`, always. -/
def execIllegalGroupF (_low : Addr12) (s : State) : Host.Outcome State Fault Refusal :=
  illegalOpcode s

end Sys2Proof.Machine
end

