-- ==== Sys2Proof/Machine/Step.lean ====
section
/-! DEFINITION. The step operation (spec/40_step_cycle.md R90 to R93): fetch, decode, execute, as one transition, with the
checks in the order of spec/60_exceptions.md R177. The random byte of the step is the state's `rand8` (log entry 1). -/

namespace Sys2Proof.Machine

/-- `step` (R93): fetch may raise `MemoryOutOfBounds`; a word the decoder refuses raises `UnimplementedOpcode`; otherwise
the decoded instruction runs on the state after fetch. -/
def step (s : State) : Host.Outcome State Fault Refusal :=
  match fetch s with
  | .error f => raise f
  | .ok (w, s') =>
    match decodeWord w with
    | .error _ => illegalOpcode s'
    | .ok i => exec i s'

/-- The state with the instruction word whose bits are `w` placed where the next step fetches it: at `pc` (R91). -/
def State.withFetchWord (s : State) (nbits w : Nat) : State :=
  placeWordAtPc s (tableWord nbits w)

end Sys2Proof.Machine
end

