-- ==== Sys2Proof/Machine/HostOps.lean ====
section
/-! DEFINITION. The operations the host has on an engine (spec/00_scope.md R16): construction from an image
(spec/70_reset_and_hazards.md R201), `step(rand8)`, the timer decrements (spec/60_exceptions.md R184), the read accessors
(spec/40_step_cycle.md R97), the fault codes (R170), and the engine that takes no further operation once it has faulted
(R172). -/

namespace Sys2Proof.Machine

/-! ### Construction (R175, R201) -/

/-- The engine a program image gives (R37 to R39): everything as after construction from no image, and the image in memory
from 0x200 on. -/
def State.ofImage (rom : List Byte) : State :=
  { State.reset with mem := Memory.ofBytes Config.programBase rom }

/-- `construct(rom)` (R201): `ConstructionOversize` for an image of more than 3584 bytes, else the engine of the image. -/
def construct (rom : List Byte) : Host.Outcome State Fault Refusal :=
  if romWellFormed rom then .next (State.ofImage rom) else raise .constructionOversize

/-! ### Stepping and the timers -/

/-- `step(rand8)` (R16, R90): one step, with `r` as the byte of the random source. -/
def stepWith (r : Byte) (s : State) : Host.Outcome State Fault Refusal := step (supplyRand r s)

/-- A timer decrement: a timer that is 0 stays 0 (R184). -/
def decTimer (t : Byte) : Byte := if t = 0#8 then 0#8 else t - 1#8

/-- `dec_delay()` (R184). -/
def decDelay (s : State) : State := { s with DT := decTimer s.DT }

/-- `dec_sound()` (R184). -/
def decSound (s : State) : State := { s with ST := decTimer s.ST }

/-! ### Read accessors (R16, R97) -/

/-- `depth`: the number of entries on the call stack (R11, R28). -/
def depth (s : State) : Nat := s.stack.length

/-- What the accessors show: "`fb`, `V[0..15]`, `I`, `pc`, `depth`, `DT`, `ST`" (R97), and neither memory (R58) nor the
entries of the stack (R28). -/
structure View where
  fb : Framebuffer
  V : Vector Byte 16
  I : Word
  pc : Word
  depth : Nat
  DT : Byte
  ST : Byte
  deriving DecidableEq, Repr

/-- All the read accessors at once; reading changes nothing (R97). -/
def view (s : State) : View :=
  { fb := s.fb, V := s.V, I := s.I, pc := s.pc, depth := depth s, DT := s.DT, ST := s.ST }

/-! ### Faults as the host sees them -/

/-- The numeric code of a fault (R170); 0 is no fault. -/
def faultCode : Fault → Nat
  | .unimplementedOpcode => 1
  | .stackUnderflow => 2
  | .memoryOutOfBounds => 3
  | .constructionOversize => 4

/-- An engine as the host holds it: one that runs, or one that a fault has ended (R35, R172). A faulted engine holds no
state: "the values of `pc`, the registers, the stack and the framebuffer after a faulting step are not defined". -/
inductive Engine where
  | running (s : State)
  | faulted (f : Fault)
  deriving DecidableEq, Repr

/-- The operations that may change an engine after construction (R16, R97, R204). -/
inductive HostOp where
  | step (rand8 : Byte)
  | decDelay
  | decSound
  deriving DecidableEq, Repr

/-- What an operation does to the state of a running engine. -/
def HostOp.run : HostOp → State → Host.Outcome State Fault Refusal
  | .step r, s => stepWith r s
  | .decDelay, s => .next (Sys2Proof.Machine.decDelay s)
  | .decSound, s => .next (Sys2Proof.Machine.decSound s)

/-- One operation on an engine. A fault leaves a faulted engine, which refuses every further operation (R172). -/
def Engine.perform (op : HostOp) : Engine → Host.Outcome Engine Fault Refusal
  | .running s =>
    match op.run s with
    | .next s' => .next (.running s')
    | .fault f => .next (.faulted f)
    | .refused r => .refused r
  | .faulted _ => .refused .engineFaulted

end Sys2Proof.Machine
end

