-- ==== Sys2Proof/Safety.lean ====
section
/-! DEFINITION. The terms in which claims about runs are stated: the invariant of the states that an engine reaches
(spec/10_state.md R26, R27, R28, R33), the instruction a state is about to execute, reachability by the host's operations
(spec/00_scope.md R16), and the end of a run (spec/40_step_cycle.md R98). -/

namespace Sys2Proof.Machine

/-- The word at the program counter, high byte first (R53). -/
def State.nextWord (s : State) : Word := wordOfBytes (s.mem.read s.pc.toNat) (s.mem.read (s.pc.toNat + 1))

/-- "program counter must reference a valid instruction pair before each fetch" (R91): both bytes are inside memory. -/
def State.canFetch (s : State) : Prop := s.pc.toNat + 1 < Config.memSize

/-- The state is about to execute the instruction `i`: the pair at `pc` is inside memory and decodes to `i`. -/
def State.executes (s : State) (i : Instr) : Prop := s.canFetch ∧ decodeWord s.nextWord = .ok i

/-- The bounds that the spec gives every reachable state: memory in its canonical form, `I` in 0..4095 (R27), `pc` at most
4350 (R26), every stack entry an address after a call, at most 4096 (R28, R102), both timers 0 (R33). -/
structure State.Inv (s : State) : Prop where
  mem_wf : s.mem.wf = true
  I_le : s.I.toNat ≤ 4095
  pc_le : s.pc.toNat ≤ 4350
  stack_le : ∀ a ∈ s.stack, a.toNat ≤ 4096
  DT_zero : s.DT = 0#8
  ST_zero : s.ST = 0#8

/-- The states an engine reaches: construction from an image, then any of the host's operations. -/
inductive Reachable : State → Prop where
  | constructed (rom : List Byte) (s : State) (h : construct rom = .next s) : Reachable s
  | operated (s s' : State) (op : HostOp) (hs : Reachable s) (h : op.run s = .next s') : Reachable s'

/-- "the state is a fixed point of `step` for every `rand8`" (R98). -/
def State.finished (s : State) : Prop := ∀ r : Byte, stepWith r s = .next (supplyRand r s)

/-- A step from the state is safe: it gives a next state. -/
def State.safeStep (s : State) : Prop := ∃ s', step s = .next s'

/-! ### Frames: what an instruction leaves unchanged (spec/00_scope.md R12) -/

/-- Every general register but the ones listed holds what it held. -/
def sameRegistersBut (ks : List RegIdx) (s t : State) : Prop := ∀ k, k ∉ ks → getV t k = getV s k

/-- Every byte of memory reads as before. -/
def sameMemory (s t : State) : Prop := ∀ a, t.mem.read a = s.mem.read a

/-- Both timers hold what they held. -/
def sameTimers (s t : State) : Prop := t.DT = s.DT ∧ t.ST = s.ST

/-- Everything but the general registers is unchanged: `I`, `pc`, the stack, the framebuffer, memory, the timers. -/
def sameAllButRegisters (s t : State) : Prop :=
  t.I = s.I ∧ t.pc = s.pc ∧ t.stack = s.stack ∧ t.fb = s.fb ∧ sameMemory s t ∧ sameTimers s t

/-- Everything but `pc` and the stack is unchanged: all registers, `I`, the framebuffer, memory, the timers. -/
def sameAllButPcAndStack (s t : State) : Prop :=
  sameRegistersBut [] s t ∧ t.I = s.I ∧ t.fb = s.fb ∧ sameMemory s t ∧ sameTimers s t

/-- Everything but `pc` is unchanged. -/
def sameAllButPc (s t : State) : Prop := sameAllButPcAndStack s t ∧ t.stack = s.stack

/-- Everything but the framebuffer and the registers is unchanged. -/
def sameAllButDisplay (s t : State) : Prop :=
  t.I = s.I ∧ t.pc = s.pc ∧ t.stack = s.stack ∧ sameMemory s t ∧ sameTimers s t

/-! ### What an instruction leaves in a register (spec/43_alu_8xy.md R141) -/

/-- The instruction completes and leaves `v` in register `k`. -/
def leaves (i : Instr) (s : State) (k : RegIdx) (v : Byte) : Prop := ∃ t, exec i s = .next t ∧ getV t k = v

/-- "A comparison inside an arithmetic expression stands for 1 when true and 0 when false" (R141). -/
def oneIf (p : Prop) [Decidable p] : Byte := if p then 1#8 else 0#8

/-! ### Who writes what (spec/10_state.md R20, R24) and where `pc` goes (spec/40_step_cycle.md R94) -/

/-- The register an instruction writes as its ordinary destination `Vx` (R20, column "written by"). -/
def destination : Instr → Option RegIdx
  | .ldImm x _ => some x
  | .addImm x _ => some x
  | .ldReg x _ => some x
  | .orReg x _ => some x
  | .andReg x _ => some x
  | .xorReg x _ => some x
  | .addReg x _ => some x
  | .subReg x _ => some x
  | .shr x _ => some x
  | .subnReg x _ => some x
  | .shl x _ => some x
  | .rnd x _ => some x
  | .cls => none
  | .ret => none
  | .jp _ => none
  | .call _ => none
  | .seImm _ _ => none
  | .sneImm _ _ => none
  | .seReg _ _ => none
  | .sneReg _ _ => none
  | .ldI _ => none
  | .jpV0 _ => none
  | .drw _ _ _ => none
  | .illegalGroupE _ => none
  | .illegalGroupF _ => none

/-- "The instructions that write VF as a side effect": 8XY4, 8XY5, 8XY6, 8XY7, 8XYE, DXYN (R24). -/
def producesFlag : Instr → Bool
  | .addReg _ _ => true
  | .subReg _ _ => true
  | .shr _ _ => true
  | .subnReg _ _ => true
  | .shl _ _ => true
  | .drw _ _ _ => true
  | .cls => false
  | .ret => false
  | .jp _ => false
  | .call _ => false
  | .seImm _ _ => false
  | .sneImm _ _ => false
  | .seReg _ _ => false
  | .ldImm _ _ => false
  | .addImm _ _ => false
  | .ldReg _ _ => false
  | .orReg _ _ => false
  | .andReg _ _ => false
  | .xorReg _ _ => false
  | .sneReg _ _ => false
  | .ldI _ => false
  | .jpV0 _ => false
  | .rnd _ _ => false
  | .illegalGroupE _ => false
  | .illegalGroupF _ => false

/-- The program counter after a step, `s.pc` the address the instruction was fetched from (R94). -/
def pcAfter (s : State) : Instr → Word
  | .ret => s.stack.headD 0#16
  | .jp nnn => nnn.setWidth 16
  | .call nnn => nnn.setWidth 16
  | .jpV0 nnn => nnn.setWidth 16 + (getV s 0).setWidth 16
  | .seImm x nn => if getV s x = nn then s.pc + 4#16 else s.pc + 2#16
  | .sneImm x nn => if getV s x = nn then s.pc + 2#16 else s.pc + 4#16
  | .seReg x y => if getV s x = getV s y then s.pc + 4#16 else s.pc + 2#16
  | .sneReg x y => if getV s x = getV s y then s.pc + 2#16 else s.pc + 4#16
  | .cls => s.pc + 2#16
  | .ldImm _ _ => s.pc + 2#16
  | .addImm _ _ => s.pc + 2#16
  | .ldReg _ _ => s.pc + 2#16
  | .orReg _ _ => s.pc + 2#16
  | .andReg _ _ => s.pc + 2#16
  | .xorReg _ _ => s.pc + 2#16
  | .addReg _ _ => s.pc + 2#16
  | .subReg _ _ => s.pc + 2#16
  | .shr _ _ => s.pc + 2#16
  | .subnReg _ _ => s.pc + 2#16
  | .shl _ _ => s.pc + 2#16
  | .ldI _ => s.pc + 2#16
  | .rnd _ _ => s.pc + 2#16
  | .drw _ _ _ => s.pc + 2#16
  | .illegalGroupE _ => s.pc + 2#16
  | .illegalGroupF _ => s.pc + 2#16

/-! ### A sprite on the grid (spec/44_display.md R151 to R157) -/

/-- Whether the sprite of `DRW Vx, Vy, n` has a set bit at cell `(cx, cy)`: its rows are the bytes at `I`, `I + 1`, …, bit 7
leftmost, and its corner is `(Vx mod 64, Vy mod 32)`. -/
def spriteBit (s : State) (x y : RegIdx) (n : Nibble) (cx cy : Nat) : Bool :=
  let x0 := (getV s x).toNat % 64
  let y0 := (getV s y).toNat % 32
  decide (x0 ≤ cx ∧ cx < x0 + 8 ∧ y0 ≤ cy ∧ cy < y0 + n.toNat) &&
    (s.mem.read (s.I.toNat + (cy - y0))).getLsbD (7 - (cx - x0))

/-- Every row of the draw that the height test lets through lies inside memory (R154). -/
def drawInBounds (s : State) (y : RegIdx) (n : Nibble) : Prop :=
  ∀ r, r < n.toNat → (getV s y).toNat % 32 + r < 32 → s.I.toNat + r ≤ 4095

/-- Some set bit of the sprite falls on a cell that holds `b`. -/
def spriteMeets (b : Bool) (s : State) (x y : RegIdx) (n : Nibble) : Prop :=
  ∃ cx cy, cx < 64 ∧ cy < 32 ∧ spriteBit s x y n cx cy = true ∧ getCell s cx cy = b

end Sys2Proof.Machine
end

