-- ==== Sys2Proof/Certificates/Slice0/Obligations.lean ====
section
/-! DEFINITION. The statements for the provers. A docstring names the rules of spec/ that a statement formalises; where a
rule rests on a decision the spec marks as its own (D<n> of spec/92_eei_decisions.md), the docstring says so. `exec` runs on
the state after fetch, so a `pc` it leaves alone is the address of the next instruction (R93). -/

open Sys2Proof Sys2Proof.Machine

/-! ### Encoding and decoding -/

/-- Words of spec/95_test_vectors.md section 4, one or more of each family, decode to the instruction they stand for. Three
clauses are the model's choice and not the spec's: section 4 says ILLEGAL of 0xE09E, 0x01E0 and 0x8AB8, and that the first
decodes to the reserved row of group E and the other two are refused under these names is log entry 4 (DEDUCED). That `shl`
carries `y` is log entry 5 (DESIGN CHOICE). -/
def Obligations.KnownWordsDecode : Prop :=
  decodeWord 0x00E0#16 = .ok .cls ∧ decodeWord 0x00EE#16 = .ok .ret ∧ decodeWord 0x1ABC#16 = .ok (.jp 0xABC) ∧
  decodeWord 0x2ABC#16 = .ok (.call 0xABC) ∧ decodeWord 0x3A7F#16 = .ok (.seImm 0xA 0x7F) ∧
  decodeWord 0x5AB0#16 = .ok (.seReg 0xA 0xB) ∧ decodeWord 0x6A7F#16 = .ok (.ldImm 0xA 0x7F) ∧
  decodeWord 0x8AB5#16 = .ok (.subReg 0xA 0xB) ∧ decodeWord 0x8ABE#16 = .ok (.shl 0xA 0xB) ∧
  decodeWord 0xA123#16 = .ok (.ldI 0x123) ∧ decodeWord 0xB300#16 = .ok (.jpV0 0x300) ∧
  decodeWord 0xCA0F#16 = .ok (.rnd 0xA 0x0F) ∧ decodeWord 0xDAB5#16 = .ok (.drw 0xA 0xB 0x5) ∧
  decodeWord 0xE09E#16 = .ok (.illegalGroupE 0x09E) ∧ decodeWord 0x01E0#16 = .error .noHandlerGroup0 ∧
  decodeWord 0x8AB8#16 = .error .noHandlerGroup8

/-- R71: the six fields of a word, and how `nn` and `nnn` overlap the others. -/
def Obligations.FieldsRecomposeWord : Prop :=
  ∀ w : Word,
    w.toNat = (fieldFirst w).toNat * 4096 + (fieldX w).val * 256 + (fieldY w).val * 16 + (fieldN w).toNat ∧
    (fieldNn w).toNat = (fieldY w).val * 16 + (fieldN w).toNat ∧
    (fieldNnn w).toNat = (fieldX w).val * 256 + (fieldNn w).toNat

/-- R72, R74, R82: an encoded instruction, followed by any bytes, decodes to itself and leaves those bytes. That the two
reserved rows have terms is the model's choice of log entry 4, and that `shr` and `shl` carry `y` that of log entry 5. -/
def Obligations.DecodeOfEncode : Prop :=
  ∀ (i : Instr) (rest : List Byte), decodeBytes (encodeBytes i ++ rest) = .ok (i, rest)

/-- R74: a word that decodes is the encoding of what it decodes to, so no bit of it is dropped. That this holds of the ignored
`y` of 8XY6 and 8XYE is the model's choice (log entry 5, DESIGN CHOICE): the spec's decoder, R84, gives `SHR x` and `SHL x`,
and its assembler writes `y = 0` (R80). That groups E and F decode is the model's choice of log entry 4. -/
def Obligations.EncodeOfDecode : Prop :=
  ∀ (w : Word) (i : Instr), decodeWord w = .ok i → encode i = w

/-- R74: "the rows do not overlap, so at most one matches". -/
def Obligations.OpcodeRowsDisjoint : Prop :=
  opcodeMap.Pairwise fun r r' => ∀ w : Word, ¬ (r.selects w = true ∧ r'.selects w = true)

/-- R74, R77: a word decodes to one of the 23 instructions exactly when it matches a row of the opcode map, and it then
matches the row of the instruction it decodes to (for groups E and F the reserved row, log entry 4). -/
def Obligations.DecodesExactlyLegalWords : Prop :=
  ∀ w : Word,
    (legalWord w = true ↔ ∃ i, decodeWord w = .ok i ∧ i.wellFormed = true) ∧
    ∀ i, decodeWord w = .ok i → i.row.selects w = true

/-- R77: the words that are no instruction are those of its six spaces. -/
def Obligations.IllegalWordSpaces : Prop :=
  ∀ w : Word, legalWord w = false ↔
    (fieldFirst w = 0x0#4 ∧ w ≠ 0x00E0#16 ∧ w ≠ 0x00EE#16) ∨
    (fieldFirst w = 0x5#4 ∧ fieldN w ≠ 0x0#4) ∨
    (fieldFirst w = 0x8#4 ∧ fieldN w ∈ [0x8#4, 0x9#4, 0xA#4, 0xB#4, 0xC#4, 0xD#4, 0xF#4]) ∨
    (fieldFirst w = 0x9#4 ∧ fieldN w ≠ 0x0#4) ∨
    fieldFirst w = 0xE#4 ∨ fieldFirst w = 0xF#4

/-- R76: in 8XY6 and 8XYE words that differ only in `y` are the same instruction with the same effect. -/
def Obligations.ShiftIgnoresY : Prop :=
  ∀ (w w' : Word) (s : State), fieldFirst w = 0x8#4 → fieldN w = 0x6#4 ∨ fieldN w = 0xE#4 →
    w &&& 0xFF0F#16 = w' &&& 0xFF0F#16 →
    ∃ i i' t, decodeWord w = .ok i ∧ decodeWord w' = .ok i' ∧ exec i s = .next t ∧ exec i' s = .next t

/-! ### The step -/

/-- R91, R92, R93: when the pair at `pc` is inside memory and decodes to `i`, the step is `i` on the state with `pc`
advanced by 2. -/
def Obligations.StepRunsDecodedInstruction : Prop :=
  ∀ (s : State) (i : Instr), s.pc.toNat ≤ 4094 →
    decodeBytes [s.mem.read s.pc.toNat, s.mem.read (s.pc.toNat + 1)] = .ok (i, []) →
    step s = exec i { s with pc := s.pc + 2#16 }

/-- R91: `pc` above 4094, 4095 included, faults at fetch whatever the bytes are. -/
def Obligations.FetchOutsideMemoryFaults : Prop :=
  ∀ s : State, 4094 < s.pc.toNat → step s = .fault .memoryOutOfBounds

/-- R160: a fetched word that matches no row of R74 raises `UnimplementedOpcode`, and no other word does. -/
def Obligations.IllegalWordFaults : Prop :=
  ∀ s : State, s.canFetch → (step s = .fault .unimplementedOpcode ↔ legalWord s.nextWord = false)

/-- R160, R161: groups E and F are wholly illegal, and executing a word of them always raises `UnimplementedOpcode`. That
their words decode, to the reserved row of their group, and that this row's meaning is what raises the fault, is the model's
choice (log entry 4, DEDUCED): R84 says ILLEGAL of them. -/
def Obligations.ReservedGroupsFault : Prop :=
  (∀ w : Word, fieldFirst w = 0xE#4 → decodeWord w = .ok (.illegalGroupE (fieldNnn w))) ∧
  (∀ w : Word, fieldFirst w = 0xF#4 → decodeWord w = .ok (.illegalGroupF (fieldNnn w))) ∧
  (∀ (low : Addr12) (s : State), exec (.illegalGroupE low) s = .fault .unimplementedOpcode) ∧
  (∀ (low : Addr12) (s : State), exec (.illegalGroupF low) s = .fault .unimplementedOpcode)

/-- R170, R173, R174, R177: exactly when a step faults, and with which fault: the fetch check, then decode, then the check of
00EE, then the reached rows of DXYN (whose order of tests is the spec's decision D8). -/
def Obligations.StepFaultsExactly : Prop :=
  ∀ (s : State) (f : Fault), step s = .fault f ↔
    (4094 < s.pc.toNat ∧ f = .memoryOutOfBounds) ∨
    (s.pc.toNat ≤ 4094 ∧ legalWord s.nextWord = false ∧ f = .unimplementedOpcode) ∨
    (s.executes .ret ∧ s.stack = [] ∧ f = .stackUnderflow) ∨
    (∃ x y n, s.executes (.drw x y n) ∧ ¬ drawInBounds s y n ∧ f = .memoryOutOfBounds)

/-- R96: every step ends in a next state or a fault; none is refused. -/
def Obligations.StepEndsInStateOrFault : Prop :=
  ∀ s : State, (∃ t, step s = .next t) ∨ ∃ f, step s = .fault f

/-- R94: where each instruction leaves `pc`. -/
def Obligations.PcAfterEachInstruction : Prop :=
  ∀ (s t : State) (i : Instr), s.executes i → step s = .next t → t.pc = pcAfter s i

/-! ### Control transfer -/

/-- R100: 00EE pops the stack into `pc`, and faults on an empty stack. -/
def Obligations.ReturnPopsStack : Prop :=
  decodeWord 0x00EE#16 = .ok .ret ∧
  (∀ s : State, s.stack = [] → exec .ret s = .fault .stackUnderflow) ∧
  ∀ (s : State) (a : Word) (rest : List Word), s.stack = a :: rest →
    ∃ t, exec .ret s = .next t ∧ t.pc = a ∧ t.stack = rest ∧ sameAllButPcAndStack s t

/-- R101: 1NNN. -/
def Obligations.JumpSetsPc : Prop :=
  (∀ w : Word, fieldFirst w = 0x1#4 → decodeWord w = .ok (.jp (fieldNnn w))) ∧
  ∀ (nnn : Addr12) (s : State), ∃ t, exec (.jp nnn) s = .next t ∧ t.pc.toNat = nnn.toNat ∧ sameAllButPc s t

/-- R102: 2NNN pushes the address of the instruction after the call (`pc` after fetch), whatever the depth. -/
def Obligations.CallPushesReturnAddress : Prop :=
  (∀ w : Word, fieldFirst w = 0x2#4 → decodeWord w = .ok (.call (fieldNnn w))) ∧
  ∀ (nnn : Addr12) (s : State), ∃ t, exec (.call nnn) s = .next t ∧ t.pc.toNat = nnn.toNat ∧
    t.stack = s.pc :: s.stack ∧ sameAllButPcAndStack s t

/-- R104: BNNN adds `V0` to `nnn` and does not reduce the sum to 12 bits (the spec's decision D9). -/
def Obligations.IndexedJumpAddsV0 : Prop :=
  (∀ w : Word, fieldFirst w = 0xB#4 → decodeWord w = .ok (.jpV0 (fieldNnn w))) ∧
  ∀ (nnn : Addr12) (s : State), ∃ t, exec (.jpV0 nnn) s = .next t ∧
    t.pc.toNat = nnn.toNat + (getV s 0).toNat ∧ sameAllButPc s t

/-- R105, R106: 3XNN skips when `Vx` equals `nn`, 4XNN when it does not, so exactly one of the two skips. -/
def Obligations.SkipOnImmediate : Prop :=
  (∀ w : Word, fieldFirst w = 0x3#4 → decodeWord w = .ok (.seImm (fieldX w) (fieldNn w))) ∧
  (∀ w : Word, fieldFirst w = 0x4#4 → decodeWord w = .ok (.sneImm (fieldX w) (fieldNn w))) ∧
  (∀ (x : RegIdx) (nn : Byte) (s : State), ∃ t, exec (.seImm x nn) s = .next t ∧
    t.pc = (if getV s x = nn then s.pc + 2#16 else s.pc) ∧ sameAllButPc s t) ∧
  ∀ (x : RegIdx) (nn : Byte) (s : State), ∃ t, exec (.sneImm x nn) s = .next t ∧
    t.pc = (if getV s x = nn then s.pc else s.pc + 2#16) ∧ sameAllButPc s t

/-- R107, R108: 5XY0 skips when `Vx` equals `Vy`, 9XY0 when it does not. That both need `n = 0` is the spec's decision D4 (log
entry 17), and that the words with another `n`, which the spec calls illegal, are refused by the decoder under these two names
is the model's choice (log entry 4, DEDUCED). -/
def Obligations.SkipOnRegister : Prop :=
  (∀ w : Word, fieldFirst w = 0x5#4 →
    (fieldN w = 0x0#4 → decodeWord w = .ok (.seReg (fieldX w) (fieldY w))) ∧
    (fieldN w ≠ 0x0#4 → decodeWord w = .error .noHandlerGroup5)) ∧
  (∀ w : Word, fieldFirst w = 0x9#4 →
    (fieldN w = 0x0#4 → decodeWord w = .ok (.sneReg (fieldX w) (fieldY w))) ∧
    (fieldN w ≠ 0x0#4 → decodeWord w = .error .noHandlerGroup9)) ∧
  (∀ (x y : RegIdx) (s : State), ∃ t, exec (.seReg x y) s = .next t ∧
    t.pc = (if getV s x = getV s y then s.pc + 2#16 else s.pc) ∧ sameAllButPc s t) ∧
  ∀ (x y : RegIdx) (s : State), ∃ t, exec (.sneReg x y) s = .next t ∧
    t.pc = (if getV s x = getV s y then s.pc else s.pc + 2#16) ∧ sameAllButPc s t

/-- R103: a call at `c` steps to its target, and a return executed whenever the stack is as the call left it continues at
`c + 2` with the stack as it was before the call. -/
def Obligations.CallReturnLaw : Prop :=
  ∀ (s : State) (nnn : Addr12), s.executes (.call nnn) →
    ∃ t, step s = .next t ∧ t.pc.toNat = nnn.toNat ∧
      ∀ u : State, u.stack = t.stack → u.executes .ret →
        ∃ v, step u = .next v ∧ v.pc.toNat = s.pc.toNat + 2 ∧ v.stack = s.stack ∧ sameAllButPcAndStack u v

/-! ### Immediate loads -/

/-- R120: 6XNN. -/
def Obligations.LoadImmediateResult : Prop :=
  (∀ w : Word, fieldFirst w = 0x6#4 → decodeWord w = .ok (.ldImm (fieldX w) (fieldNn w))) ∧
  ∀ (x : RegIdx) (nn : Byte) (s : State), ∃ t, exec (.ldImm x nn) s = .next t ∧
    getV t x = nn ∧ sameRegistersBut [x] s t ∧ sameAllButRegisters s t

/-- R121: 7XNN adds modulo 256 and writes no flag: `VF` is unchanged unless it is `Vx`. -/
def Obligations.AddImmediateResult : Prop :=
  (∀ w : Word, fieldFirst w = 0x7#4 → decodeWord w = .ok (.addImm (fieldX w) (fieldNn w))) ∧
  ∀ (x : RegIdx) (nn : Byte) (s : State), ∃ t, exec (.addImm x nn) s = .next t ∧
    (getV t x).toNat = ((getV s x).toNat + nn.toNat) % 256 ∧ sameRegistersBut [x] s t ∧ sameAllButRegisters s t

/-- R122: ANNN. -/
def Obligations.LoadIndexResult : Prop :=
  (∀ w : Word, fieldFirst w = 0xA#4 → decodeWord w = .ok (.ldI (fieldNnn w))) ∧
  ∀ (nnn : Addr12) (s : State), ∃ t, exec (.ldI nnn) s = .next t ∧ t.I.toNat = nnn.toNat ∧
    sameRegistersBut [] s t ∧ t.pc = s.pc ∧ t.stack = s.stack ∧ t.fb = s.fb ∧ sameMemory s t ∧ sameTimers s t

/-- R123: CXNN with any byte `r` of the random source. -/
def Obligations.RandomAndMask : Prop :=
  (∀ w : Word, fieldFirst w = 0xC#4 → decodeWord w = .ok (.rnd (fieldX w) (fieldNn w))) ∧
  ∀ (x : RegIdx) (nn r : Byte) (s : State), ∃ t, exec (.rnd x nn) (supplyRand r s) = .next t ∧
    getV t x = r &&& nn ∧ sameRegistersBut [x] s t ∧ sameAllButRegisters s t

/-! ### The register-to-register group -/

/-- R131 to R134: 8XY0 to 8XY3 write `Vx` and nothing else; in particular not `VF`. -/
def Obligations.MoveAndLogicResults : Prop :=
  (∀ w : Word, fieldFirst w = 0x8#4 →
    (fieldN w = 0x0#4 → decodeWord w = .ok (.ldReg (fieldX w) (fieldY w))) ∧
    (fieldN w = 0x1#4 → decodeWord w = .ok (.orReg (fieldX w) (fieldY w))) ∧
    (fieldN w = 0x2#4 → decodeWord w = .ok (.andReg (fieldX w) (fieldY w))) ∧
    (fieldN w = 0x3#4 → decodeWord w = .ok (.xorReg (fieldX w) (fieldY w)))) ∧
  ∀ (x y : RegIdx) (s : State),
    (∃ t, exec (.ldReg x y) s = .next t ∧ getV t x = getV s y ∧ sameRegistersBut [x] s t ∧ sameAllButRegisters s t) ∧
    (∃ t, exec (.orReg x y) s = .next t ∧ getV t x = getV s x ||| getV s y ∧
      sameRegistersBut [x] s t ∧ sameAllButRegisters s t) ∧
    (∃ t, exec (.andReg x y) s = .next t ∧ getV t x = getV s x &&& getV s y ∧
      sameRegistersBut [x] s t ∧ sameAllButRegisters s t) ∧
    (∃ t, exec (.xorReg x y) s = .next t ∧ getV t x = getV s x ^^^ getV s y ∧
      sameRegistersBut [x] s t ∧ sameAllButRegisters s t)

/-- R135: 8XY4. The sum is of the old values and the result is written after the carry (the order is the spec's decision D5),
so with `x = 0xF` the result is what `VF` holds. -/
def Obligations.AddWithCarry : Prop :=
  (∀ w : Word, fieldFirst w = 0x8#4 → fieldN w = 0x4#4 → decodeWord w = .ok (.addReg (fieldX w) (fieldY w))) ∧
  ∀ (x y : RegIdx) (s : State), ∃ t, exec (.addReg x y) s = .next t ∧
    (getV t x).toNat = ((getV s x).toNat + (getV s y).toNat) % 256 ∧
    (x ≠ 15 → getV t 15 = if 255 < (getV s x).toNat + (getV s y).toNat then 1#8 else 0#8) ∧
    sameRegistersBut [x, 15] s t ∧ sameAllButRegisters s t

/-- R136: 8XY5. The flag `f` is strict, and the difference is of the registers after `VF` holds `f` (the order is the spec's
decision D5). -/
def Obligations.SubtractWithFlag : Prop :=
  (∀ w : Word, fieldFirst w = 0x8#4 → fieldN w = 0x5#4 → decodeWord w = .ok (.subReg (fieldX w) (fieldY w))) ∧
  ∀ (x y : RegIdx) (s : State) (f : Byte), (f = if (getV s y).toNat < (getV s x).toNat then 1#8 else 0#8) →
    ∃ t, exec (.subReg x y) s = .next t ∧
      getV t x = (if x = 15 then f else getV s x) - (if y = 15 then f else getV s y) ∧
      (x ≠ 15 → getV t 15 = f) ∧ sameRegistersBut [x, 15] s t ∧ sameAllButRegisters s t

/-- R138: 8XY7. As R136 with the operands of the comparison and of the difference exchanged (order: the spec's D5). -/
def Obligations.SubtractReversedWithFlag : Prop :=
  (∀ w : Word, fieldFirst w = 0x8#4 → fieldN w = 0x7#4 → decodeWord w = .ok (.subnReg (fieldX w) (fieldY w))) ∧
  ∀ (x y : RegIdx) (s : State) (f : Byte), (f = if (getV s x).toNat < (getV s y).toNat then 1#8 else 0#8) →
    ∃ t, exec (.subnReg x y) s = .next t ∧
      getV t x = (if y = 15 then f else getV s y) - (if x = 15 then f else getV s x) ∧
      (x ≠ 15 → getV t 15 = f) ∧ sameRegistersBut [x, 15] s t ∧ sameAllButRegisters s t

/-- R137: 8XY6 shifts `Vx` right by one, `VF` the bit shifted out; with `x = 0xF` it always ends with 0 (order: D5). -/
def Obligations.ShiftRightResult : Prop :=
  (∀ w : Word, fieldFirst w = 0x8#4 → fieldN w = 0x6#4 → decodeWord w = .ok (.shr (fieldX w) (fieldY w))) ∧
  ∀ (x y : RegIdx) (s : State), ∃ t, exec (.shr x y) s = .next t ∧
    (x ≠ 15 → (getV t x).toNat = (getV s x).toNat / 2 ∧ (getV t 15).toNat = (getV s x).toNat % 2) ∧
    (x = 15 → getV t 15 = 0#8) ∧ sameRegistersBut [x, 15] s t ∧ sameAllButRegisters s t

/-- R139: 8XYE shifts `Vx` left by one, `VF` the bit shifted out as 0 or 1 (the default of `SHL_FLAG_RAW`, the spec's D6);
with `x = 0xF` the flag itself is shifted (D5). With the raw flag, `shiftLeft true` leaves 0x80 or 0x00 in `VF`. -/
def Obligations.ShiftLeftResult : Prop :=
  (∀ w : Word, fieldFirst w = 0x8#4 → fieldN w = 0xE#4 → decodeWord w = .ok (.shl (fieldX w) (fieldY w))) ∧
  (∀ (x y : RegIdx) (s : State), ∃ t, exec (.shl x y) s = .next t ∧
    (x ≠ 15 → (getV t x).toNat = (getV s x).toNat * 2 % 256 ∧ (getV t 15).toNat = (getV s x).toNat / 128) ∧
    (x = 15 → (getV t 15).toNat = (getV s x).toNat / 128 * 2) ∧
    sameRegistersBut [x, 15] s t ∧ sameAllButRegisters s t) ∧
  ∀ (x : RegIdx) (s : State),
    (x ≠ 15 → (getV (shiftLeft true x s) x).toNat = (getV s x).toNat * 2 % 256 ∧
      (getV (shiftLeft true x s) 15).toNat = (getV s x).toNat / 128 * 128) ∧
    (x = 15 → getV (shiftLeft true x s) 15 = 0#8) ∧
    sameRegistersBut [x, 15] s (shiftLeft true x s) ∧ sameAllButRegisters s (shiftLeft true x s)

/-- R141: every cell of its columns `y = 0xF` only, `x = 0xF` only and `x = y = 0xF`, for all nine instructions, and what it
says of `Vx` when `y = 0xF` only. `k` is the operand that is not `VF`, `a` its old value, `f0` the old `VF`. The outcomes of
the five flag-producing instructions rest on the spec's D5, that of 8XYE also on D6. -/
def Obligations.AliasedFlagTable : Prop :=
  ∀ (s : State) (k : RegIdx), k ≠ 15 → ∀ a f0 : Byte, getV s k = a → getV s 15 = f0 →
    -- `VF`, `y = 0xF` only
    (leaves (.ldReg k 15) s 15 f0 ∧ leaves (.orReg k 15) s 15 f0 ∧ leaves (.andReg k 15) s 15 f0 ∧
      leaves (.xorReg k 15) s 15 f0 ∧
      leaves (.addReg k 15) s 15 (oneIf (255 < a.toNat + f0.toNat)) ∧
      leaves (.subReg k 15) s 15 (oneIf (f0.toNat < a.toNat)) ∧
      leaves (.shr k 15) s 15 (a &&& 1#8) ∧
      leaves (.subnReg k 15) s 15 (oneIf (a.toNat < f0.toNat)) ∧
      leaves (.shl k 15) s 15 (a >>> 7)) ∧
    -- `VF`, `x = 0xF` only
    (leaves (.ldReg 15 k) s 15 a ∧ leaves (.orReg 15 k) s 15 (f0 ||| a) ∧ leaves (.andReg 15 k) s 15 (f0 &&& a) ∧
      leaves (.xorReg 15 k) s 15 (f0 ^^^ a) ∧
      leaves (.addReg 15 k) s 15 (f0 + a) ∧
      leaves (.subReg 15 k) s 15 (oneIf (a.toNat < f0.toNat) - a) ∧
      leaves (.shr 15 k) s 15 0#8 ∧
      leaves (.subnReg 15 k) s 15 (a - oneIf (f0.toNat < a.toNat)) ∧
      leaves (.shl 15 k) s 15 (2#8 * (f0 >>> 7))) ∧
    -- `VF`, `x = y = 0xF`
    (leaves (.ldReg 15 15) s 15 f0 ∧ leaves (.orReg 15 15) s 15 f0 ∧ leaves (.andReg 15 15) s 15 f0 ∧
      leaves (.xorReg 15 15) s 15 0#8 ∧
      leaves (.addReg 15 15) s 15 (2#8 * f0) ∧
      leaves (.subReg 15 15) s 15 0#8 ∧
      leaves (.shr 15 15) s 15 0#8 ∧
      leaves (.subnReg 15 15) s 15 0#8 ∧
      leaves (.shl 15 15) s 15 (2#8 * (f0 >>> 7))) ∧
    -- `Vx`, `y = 0xF` only
    leaves (.addReg k 15) s k (a + f0) ∧
    leaves (.subReg k 15) s k (a - oneIf (f0.toNat < a.toNat)) ∧
    leaves (.shr k 15) s k (a >>> 1) ∧
    leaves (.subnReg k 15) s k (oneIf (a.toNat < f0.toNat) - a) ∧
    leaves (.shl k 15) s k (2#8 * a)

/-- R24: a flag-producing instruction whose destination is not `VF` leaves 0 or 1 in it (8XYE by default, the spec's D6). -/
def Obligations.FlagIsZeroOrOne : Prop :=
  ∀ (i : Instr) (s t : State), producesFlag i = true → destination i ≠ some 15 → exec i s = .next t →
    getV t 15 = 0#8 ∨ getV t 15 = 1#8

/-! ### Display -/

/-- R30: cell `(x, y)` is element `y * 64 + x` of the 2048, each cell of the grid has its own element, and a write changes
the cell written and no other. -/
def Obligations.FramebufferLayout : Prop :=
  ∀ (s : State) (x y : Nat), x < 64 → y < 32 →
    y * 64 + x < 2048 ∧ getCell s x y = s.fb.getLsbD (y * 64 + x) ∧
    ∀ (b : Bool) (x' y' : Nat), x' < 64 → y' < 32 →
      getCell (setCell s x y b) x' y' = if x' = x ∧ y' = y then b else getCell s x' y'

/-- R150: 00E0. -/
def Obligations.ClearMakesEveryCellFalse : Prop :=
  decodeWord 0x00E0#16 = .ok .cls ∧
  ∀ s : State, ∃ t, exec .cls s = .next t ∧ (∀ x y, x < 64 → y < 32 → getCell t x y = false) ∧
    sameRegistersBut [] s t ∧ sameAllButDisplay s t

/-- R154: DXYN completes when every row that the height test lets through is inside memory, and else raises
`MemoryOutOfBounds` (that the height test comes first is the spec's decision D8). -/
def Obligations.DrawBoundsExactly : Prop :=
  ∀ (x y : RegIdx) (n : Nibble) (s : State),
    (drawInBounds s y n → ∃ t, exec (.drw x y n) s = .next t) ∧
    (¬ drawInBounds s y n → exec (.drw x y n) s = .fault .memoryOutOfBounds)

/-- R151 to R153, R155 to R157: the whole effect of DXYN when it completes. Each cell of the grid under a set sprite bit, bit 7
leftmost, is inverted, so the sprite is clipped at the right and bottom edges and nothing wraps; `VF` is 1 when such a cell was
on, else 0; nothing else changes. When it completes is R154 with the height test first, the spec's D8 (log entry 9). -/
def Obligations.DrawXorsSprite : Prop :=
  (∀ w : Word, fieldFirst w = 0xD#4 → decodeWord w = .ok (.drw (fieldX w) (fieldY w) (fieldN w))) ∧
  ∀ (x y : RegIdx) (n : Nibble) (s : State), drawInBounds s y n →
    ∃ t, exec (.drw x y n) s = .next t ∧
      (∀ cx cy, cx < 64 → cy < 32 → getCell t cx cy = (getCell s cx cy ^^ spriteBit s x y n cx cy)) ∧
      (spriteMeets true s x y n → getV t 15 = 1#8) ∧ (¬ spriteMeets true s x y n → getV t 15 = 0#8) ∧
      sameRegistersBut [15] s t ∧ sameAllButDisplay s t

/-- R152 (XOR is its own inverse): the same draw twice, with coordinates that are not in `VF`, restores the framebuffer; the
second draw reports a collision when some plotted bit fell on a cell that was off before the first. This last clause is the
model's reading of the loop of R151 and of R153 (log entry 15, DEDUCED), and not what the last half sentence of R152 says. -/
def Obligations.DrawTwiceRestores : Prop :=
  ∀ (x y : RegIdx) (n : Nibble) (s t : State), x ≠ 15 → y ≠ 15 → exec (.drw x y n) s = .next t →
    ∃ u, exec (.drw x y n) t = .next u ∧ u.fb = s.fb ∧
      (spriteMeets false s x y n → getV u 15 = 1#8) ∧ (¬ spriteMeets false s x y n → getV u 15 = 0#8)

/-! ### Memory -/

/-- R53, R54: what `MemRead(addr, 1)` and `MemRead(addr, 2)` answer: big-endian, and a fault when any byte is above 4095. -/
def Obligations.MemReadIsBigEndianAndBounded : Prop :=
  ∀ (s : State) (a : Nat),
    (a ≤ 4095 → memRead1 s a = .ok (s.mem.read a)) ∧ (4095 < a → memRead1 s a = .error .memoryOutOfBounds) ∧
    (a ≤ 4094 → ∃ w, memRead2 s a = .ok w ∧ w.toNat = (s.mem.read a).toNat * 256 + (s.mem.read (a + 1)).toNat) ∧
    (4094 < a → memRead2 s a = .error .memoryOutOfBounds)

/-- The model's own `withFetchWord` (log entry 8): in a state with canonical memory whose `pc` is inside memory, the word it
places is the one the next step fetches, every other byte of memory reads as before, and memory stays canonical. -/
def Obligations.PlacedWordIsFetched : Prop :=
  ∀ (s : State) (w : Word), s.mem.wf = true → s.pc.toNat ≤ 4094 →
    let t := s.withFetchWord 16 w.toNat
    t.mem.wf = true ∧ fetch t = .ok (w, { t with pc := s.pc + 2#16 }) ∧
      ∀ a, a ≠ s.pc.toNat → a ≠ s.pc.toNat + 1 → t.mem.read a = s.mem.read a

/-- R51, R56, R58: construction from an image of at most 3584 bytes leaves memory that reads as that image from 0x200 on and as
0 elsewhere, and after it neither a step nor any of the host's operations changes what any address reads as. -/
def Obligations.MemoryIsTheImage : Prop :=
  (∀ rom : List Byte, rom.length ≤ 3584 → ∃ s, construct rom = .next s ∧
    ∀ a, s.mem.read a = if 0x200 ≤ a then rom.getD (a - 0x200) 0#8 else 0#8) ∧
  (∀ s t : State, step s = .next t → sameMemory s t) ∧
  ∀ (op : HostOp) (s t : State), op.run s = .next t → sameMemory s t

/-! ### Construction and the host's operations -/

/-- R37, R38: what construction from an image of at most 3584 bytes leaves. -/
def Obligations.ConstructedState : Prop :=
  ∀ rom : List Byte, rom.length ≤ 3584 →
    ∃ s, construct rom = .next s ∧ (∀ k, getV s k = 0#8) ∧ s.I = 0#16 ∧ s.stack = [] ∧ depth s = 0 ∧
      (∀ x y, x < 64 → y < 32 → getCell s x y = false) ∧
      (∀ a, a < 0x200 → s.mem.read a = 0#8) ∧
      (∀ (k : Nat) (b : Byte), rom[k]? = some b → s.mem.read (0x200 + k) = b) ∧
      (∀ a, 0x200 + rom.length ≤ a → s.mem.read a = 0#8) ∧ s.DT = 0#8 ∧ s.ST = 0#8

/-- R175: an image of more than 3584 bytes gives `ConstructionOversize` and no engine; one of at most 3584 is valid and is
not truncated. -/
def Obligations.OversizeImageFaults : Prop :=
  ∀ rom : List Byte,
    (3584 < rom.length → construct rom = .fault .constructionOversize) ∧
    (rom.length ≤ 3584 → ∃ s, construct rom = .next s ∧
      ∀ (k : Nat) (b : Byte), rom[k]? = some b → s.mem.read (0x200 + k) = b)

/-- R39, R201: `pc` is 0x200 after construction from every image of at most 3584 bytes (the spec's decision D1, log entry 6).
The reset state is the construction from the empty image (log entry 8), and it meets the invariant. -/
def Obligations.ResetMeetsInvariant : Prop :=
  (∀ rom : List Byte, rom.length ≤ 3584 → ∃ s, construct rom = .next s ∧ s.pc = 0x200#16) ∧
  construct [] = .next State.reset ∧ State.reset.pc = 0x200#16 ∧ State.reset.Inv

/-- R184: a decrement takes 1 from a timer that is not 0, leaves 0 alone and touches nothing else, so it is the identity on
every state with the invariant (that it stops at 0 is the spec's decision D11). -/
def Obligations.TimerDecrements : Prop :=
  ∀ s : State,
    (∃ t, HostOp.decDelay.run s = .next t ∧ t.DT.toNat = s.DT.toNat - 1 ∧ { t with DT := s.DT } = s) ∧
    (∃ t, HostOp.decSound.run s = .next t ∧ t.ST.toNat = s.ST.toNat - 1 ∧ { t with ST := s.ST } = s) ∧
    (s.Inv → HostOp.decDelay.run s = .next s ∧ HostOp.decSound.run s = .next s)

/-- R172 (the spec's D7, D19): a faulted engine refuses every operation. Of a running engine, an operation that faults leaves a
faulted one and an operation that gives a next state leaves a running one; `step(rand8)` is the step with that byte supplied
(R95), and a timer decrement always leaves a running engine, since it never faults (R184). -/
def Obligations.FaultedEngineRefuses : Prop :=
  (∀ (op : HostOp) (f : Fault), Engine.perform op (.faulted f) = .refused .engineFaulted) ∧
  (∀ (op : HostOp) (s : State) (f : Fault), op.run s = .fault f →
    Engine.perform op (.running s) = .next (.faulted f)) ∧
  (∀ (op : HostOp) (s t : State), op.run s = .next t → Engine.perform op (.running s) = .next (.running t)) ∧
  (∀ (r : Byte) (s : State), (HostOp.step r).run s = step (supplyRand r s)) ∧
  ∀ s : State, (∃ t, Engine.perform .decDelay (.running s) = .next (.running t)) ∧
    ∃ t, Engine.perform .decSound (.running s) = .next (.running t)

/-! ### Whole-machine rules -/

/-- R12, R20, R24 (the spec's D20): an instruction leaves every register alone but its destination and, if it produces a
flag, `VF`. -/
def Obligations.RegisterFrame : Prop :=
  ∀ (i : Instr) (s t : State) (k : RegIdx), exec i s = .next t → destination i ≠ some k →
    (producesFlag i = true → k ≠ 15) → getV t k = getV s k

/-- R12, R20: only ANNN writes `I`, only 2NNN and 00EE the stack, only 00E0 and DXYN the framebuffer, and no instruction
writes memory or a timer. -/
def Obligations.SpecialStateFrame : Prop :=
  ∀ (i : Instr) (s t : State), exec i s = .next t →
    ((∀ nnn, i ≠ .ldI nnn) → t.I = s.I) ∧
    (i ≠ .ret → (∀ nnn, i ≠ .call nnn) → t.stack = s.stack) ∧
    (i ≠ .cls → (∀ x y n, i ≠ .drw x y n) → t.fb = s.fb) ∧
    sameMemory s t ∧ sameTimers s t

/-- R95 (the spec's D12): the result of a step that does not execute CXNN does not depend on the random byte. -/
def Obligations.OnlyRandomReadsRand : Prop :=
  ∀ (s : State) (r : Byte), (∀ x nn, ¬ s.executes (.rnd x nn)) →
    (∀ t, step s = .next t → stepWith r s = .next (supplyRand r t)) ∧
    (∀ f, step s = .fault f → stepWith r s = .fault f)

/-- R98 (the spec's D13): a jump to its own address is a fixed point of the step for every random byte, and the only states a
step maps to themselves are at such a jump. -/
def Obligations.FixedPointsAreSelfJumps : Prop :=
  (∀ (s : State) (nnn : Addr12), s.executes (.jp nnn) → nnn.toNat = s.pc.toNat → s.finished) ∧
  (∀ (s : State) (nnn : Addr12), s.executes (.jpV0 nnn) → nnn.toNat + (getV s 0).toNat = s.pc.toNat → s.finished) ∧
  ∀ s : State, step s = .next s →
    ∃ nnn : Addr12, (s.executes (.jp nnn) ∧ nnn.toNat = s.pc.toNat) ∨
      (s.executes (.jpV0 nnn) ∧ nnn.toNat + (getV s 0).toNat = s.pc.toNat)

/-- R26, R27, R28, R33, R56: a step keeps the invariant: memory canonical, `I` at most 4095, `pc` at most 4350, every stack
entry at most 4096, both timers 0. -/
def Obligations.StepKeepsInvariant : Prop :=
  ∀ s t : State, s.Inv → step s = .next t → t.Inv

/-- R26, R27, R28, R33: every state an engine reaches, by construction and any of the host's operations, meets the
invariant. -/
def Obligations.ReachableMeetsInvariant : Prop :=
  ∀ s : State, Reachable s → s.Inv
end

