-- ==== Sys2Proof/Laws/Decode.lean ====
section
/-! SUPPORT. The six fields of a word that the encoder lays out (spec/30_encoding.md R71, R72), what the decoder reads for
each value of `first`, and that a word is its two bytes (R53, R82). -/

namespace Sys2Proof

/-- The register field holds the register's index. -/
theorem regField_toNat (x : RegIdx) : (regField x).toNat = x.val := by
  simp only [regField, BitVec.toNat_ofNat]
  omega

/-! ### Fields as numbers -/

theorem fieldFirst_toNat (w : Word) : (fieldFirst w).toNat = w.toNat / 4096 := by
  have := w.isLt
  simp only [fieldFirst, BitVec.extractLsb'_toNat, Nat.shiftRight_eq_div_pow]
  omega

theorem fieldX_val (w : Word) : (fieldX w).val = w.toNat / 256 % 16 := by
  simp [fieldX, BitVec.extractLsb'_toNat, Nat.shiftRight_eq_div_pow]

theorem fieldY_val (w : Word) : (fieldY w).val = w.toNat / 16 % 16 := by
  simp [fieldY, BitVec.extractLsb'_toNat, Nat.shiftRight_eq_div_pow]

theorem fieldN_toNat (w : Word) : (fieldN w).toNat = w.toNat % 16 := by
  simp [fieldN, BitVec.extractLsb'_toNat]

theorem fieldNn_toNat (w : Word) : (fieldNn w).toNat = w.toNat % 256 := by
  simp [fieldNn, BitVec.extractLsb'_toNat]

theorem fieldNnn_toNat (w : Word) : (fieldNnn w).toNat = w.toNat % 4096 := by
  simp [fieldNnn, BitVec.extractLsb'_toNat]

/-! ### The formats as numbers -/

/-- Bit vectors laid side by side, as a number. -/
theorem append_toNat {m n : Nat} (a : BitVec m) (b : BitVec n) : (a ++ b).toNat = a.toNat * 2 ^ n + b.toNat := by
  rw [BitVec.toNat_append, ← Nat.shiftLeft_add_eq_or_of_lt b.isLt, Nat.shiftLeft_eq]

theorem formatNnn_toNat (f : Nibble) (nnn : Addr12) : (formatNnn f nnn).toNat = f.toNat * 4096 + nnn.toNat :=
  append_toNat f nnn

theorem formatXnn_toNat (f : Nibble) (x : RegIdx) (nn : Byte) :
    (formatXnn f x nn).toNat = f.toNat * 4096 + x.val * 256 + nn.toNat := by
  have h : (formatXnn f x nn).toNat = f.toNat * 2 ^ (4 + 8) + ((regField x).toNat * 2 ^ 8 + nn.toNat) := by
    rw [← append_toNat, ← append_toNat, formatXnn]
  rw [h, regField_toNat]
  omega

theorem formatXyn_toNat (f : Nibble) (x y : RegIdx) (n : Nibble) :
    (formatXyn f x y n).toNat = f.toNat * 4096 + x.val * 256 + y.val * 16 + n.toNat := by
  have h : (formatXyn f x y n).toNat
      = f.toNat * 2 ^ (4 + (4 + 4)) + ((regField x).toNat * 2 ^ (4 + 4) + ((regField y).toNat * 2 ^ 4 + n.toNat)) := by
    rw [← append_toNat, ← append_toNat, ← append_toNat, formatXyn]
  rw [h, regField_toNat, regField_toNat]
  omega

/-! ### The fields of each format -/

theorem fieldFirst_formatNnn (f : Nibble) (nnn : Addr12) : fieldFirst (formatNnn f nnn) = f := by
  have := nnn.isLt
  apply BitVec.eq_of_toNat_eq
  rw [fieldFirst_toNat, formatNnn_toNat]
  omega

theorem fieldNnn_formatNnn (f : Nibble) (nnn : Addr12) : fieldNnn (formatNnn f nnn) = nnn := by
  have := nnn.isLt
  apply BitVec.eq_of_toNat_eq
  rw [fieldNnn_toNat, formatNnn_toNat]
  omega

theorem fieldFirst_formatXnn (f : Nibble) (x : RegIdx) (nn : Byte) : fieldFirst (formatXnn f x nn) = f := by
  have := nn.isLt
  have := x.isLt
  apply BitVec.eq_of_toNat_eq
  rw [fieldFirst_toNat, formatXnn_toNat]
  omega

theorem fieldX_formatXnn (f : Nibble) (x : RegIdx) (nn : Byte) : fieldX (formatXnn f x nn) = x := by
  have := nn.isLt
  have := x.isLt
  apply Fin.ext
  rw [fieldX_val, formatXnn_toNat]
  omega

theorem fieldNn_formatXnn (f : Nibble) (x : RegIdx) (nn : Byte) : fieldNn (formatXnn f x nn) = nn := by
  have := nn.isLt
  apply BitVec.eq_of_toNat_eq
  rw [fieldNn_toNat, formatXnn_toNat]
  omega

theorem fieldFirst_formatXyn (f : Nibble) (x y : RegIdx) (n : Nibble) : fieldFirst (formatXyn f x y n) = f := by
  have := n.isLt
  have := x.isLt
  have := y.isLt
  apply BitVec.eq_of_toNat_eq
  rw [fieldFirst_toNat, formatXyn_toNat]
  omega

theorem fieldX_formatXyn (f : Nibble) (x y : RegIdx) (n : Nibble) : fieldX (formatXyn f x y n) = x := by
  have := n.isLt
  have := x.isLt
  have := y.isLt
  apply Fin.ext
  rw [fieldX_val, formatXyn_toNat]
  omega

theorem fieldY_formatXyn (f : Nibble) (x y : RegIdx) (n : Nibble) : fieldY (formatXyn f x y n) = y := by
  have := n.isLt
  have := y.isLt
  apply Fin.ext
  rw [fieldY_val, formatXyn_toNat]
  omega

theorem fieldN_formatXyn (f : Nibble) (x y : RegIdx) (n : Nibble) : fieldN (formatXyn f x y n) = n := by
  have := n.isLt
  apply BitVec.eq_of_toNat_eq
  rw [fieldN_toNat, formatXyn_toNat]
  omega

/-! ### A word is laid out again from its fields -/

theorem formatNnn_of_fields (w : Word) : formatNnn (fieldFirst w) (fieldNnn w) = w := by
  apply BitVec.eq_of_toNat_eq
  rw [formatNnn_toNat, fieldFirst_toNat, fieldNnn_toNat]
  omega

theorem formatXnn_of_fields (w : Word) : formatXnn (fieldFirst w) (fieldX w) (fieldNn w) = w := by
  apply BitVec.eq_of_toNat_eq
  rw [formatXnn_toNat, fieldFirst_toNat, fieldX_val, fieldNn_toNat]
  omega

theorem formatXyn_of_fields (w : Word) : formatXyn (fieldFirst w) (fieldX w) (fieldY w) (fieldN w) = w := by
  apply BitVec.eq_of_toNat_eq
  rw [formatXyn_toNat, fieldFirst_toNat, fieldX_val, fieldY_val, fieldN_toNat]
  omega

/-! ### Bytes -/

/-- A word is its high byte followed by its low byte (R53). -/
theorem wordOfBytes_bytes (w : Word) : wordOfBytes (highByte w) (lowByte w) = w := by
  apply BitVec.eq_of_toNat_eq
  have := w.isLt
  rw [wordOfBytes, append_toNat, highByte, lowByte, BitVec.extractLsb'_toNat, BitVec.extractLsb'_toNat,
    Nat.shiftRight_eq_div_pow]
  omega

/-- Decoding the bytes of a word is decoding the word. -/
theorem decodeBytes_of_word (w : Word) (rest : List Byte) :
    decodeBytes (highByte w :: lowByte w :: rest) = (decodeWord w).map (·, rest) := by
  simp only [decodeBytes, wordOfBytes_bytes]
  cases decodeWord w <;> rfl

end Sys2Proof
end

