-- ==== Sys2Proof/Laws/State.lean ====
section
/-! SUPPORT. For each update of the state, what each field holds afterwards; and reading a register after a write. No later
proof unfolds a record update. -/

namespace Sys2Proof.Machine

/-! `setV` -/

@[simp] theorem setV_V (s : State) (k : RegIdx) (b : Byte) : (setV s k b).V = s.V.set k.val b := rfl
@[simp] theorem setV_I (s : State) (k : RegIdx) (b : Byte) : (setV s k b).I = s.I := rfl
@[simp] theorem setV_pc (s : State) (k : RegIdx) (b : Byte) : (setV s k b).pc = s.pc := rfl
@[simp] theorem setV_stack (s : State) (k : RegIdx) (b : Byte) : (setV s k b).stack = s.stack := rfl
@[simp] theorem setV_fb (s : State) (k : RegIdx) (b : Byte) : (setV s k b).fb = s.fb := rfl
@[simp] theorem setV_mem (s : State) (k : RegIdx) (b : Byte) : (setV s k b).mem = s.mem := rfl
@[simp] theorem setV_DT (s : State) (k : RegIdx) (b : Byte) : (setV s k b).DT = s.DT := rfl
@[simp] theorem setV_ST (s : State) (k : RegIdx) (b : Byte) : (setV s k b).ST = s.ST := rfl
@[simp] theorem setV_rand8 (s : State) (k : RegIdx) (b : Byte) : (setV s k b).rand8 = s.rand8 := rfl
@[simp] theorem setV_draws (s : State) (k : RegIdx) (b : Byte) : (setV s k b).draws = s.draws := rfl

/-! `setFlag` -/

@[simp] theorem setFlag_I (s : State) (b : Byte) : (setFlag s b).I = s.I := rfl
@[simp] theorem setFlag_pc (s : State) (b : Byte) : (setFlag s b).pc = s.pc := rfl
@[simp] theorem setFlag_stack (s : State) (b : Byte) : (setFlag s b).stack = s.stack := rfl
@[simp] theorem setFlag_fb (s : State) (b : Byte) : (setFlag s b).fb = s.fb := rfl
@[simp] theorem setFlag_mem (s : State) (b : Byte) : (setFlag s b).mem = s.mem := rfl
@[simp] theorem setFlag_DT (s : State) (b : Byte) : (setFlag s b).DT = s.DT := rfl
@[simp] theorem setFlag_ST (s : State) (b : Byte) : (setFlag s b).ST = s.ST := rfl
@[simp] theorem setFlag_rand8 (s : State) (b : Byte) : (setFlag s b).rand8 = s.rand8 := rfl
@[simp] theorem setFlag_draws (s : State) (b : Byte) : (setFlag s b).draws = s.draws := rfl

/-! `setI` -/

@[simp] theorem setI_V (s : State) (a : Word) : (setI s a).V = s.V := rfl
@[simp] theorem setI_I (s : State) (a : Word) : (setI s a).I = a := rfl
@[simp] theorem setI_pc (s : State) (a : Word) : (setI s a).pc = s.pc := rfl
@[simp] theorem setI_stack (s : State) (a : Word) : (setI s a).stack = s.stack := rfl
@[simp] theorem setI_fb (s : State) (a : Word) : (setI s a).fb = s.fb := rfl
@[simp] theorem setI_mem (s : State) (a : Word) : (setI s a).mem = s.mem := rfl
@[simp] theorem setI_DT (s : State) (a : Word) : (setI s a).DT = s.DT := rfl
@[simp] theorem setI_ST (s : State) (a : Word) : (setI s a).ST = s.ST := rfl
@[simp] theorem setI_rand8 (s : State) (a : Word) : (setI s a).rand8 = s.rand8 := rfl
@[simp] theorem setI_draws (s : State) (a : Word) : (setI s a).draws = s.draws := rfl

/-! `setPc` -/

@[simp] theorem setPc_V (s : State) (a : Word) : (setPc s a).V = s.V := rfl
@[simp] theorem setPc_I (s : State) (a : Word) : (setPc s a).I = s.I := rfl
@[simp] theorem setPc_pc (s : State) (a : Word) : (setPc s a).pc = a := rfl
@[simp] theorem setPc_stack (s : State) (a : Word) : (setPc s a).stack = s.stack := rfl
@[simp] theorem setPc_fb (s : State) (a : Word) : (setPc s a).fb = s.fb := rfl
@[simp] theorem setPc_mem (s : State) (a : Word) : (setPc s a).mem = s.mem := rfl
@[simp] theorem setPc_DT (s : State) (a : Word) : (setPc s a).DT = s.DT := rfl
@[simp] theorem setPc_ST (s : State) (a : Word) : (setPc s a).ST = s.ST := rfl
@[simp] theorem setPc_rand8 (s : State) (a : Word) : (setPc s a).rand8 = s.rand8 := rfl
@[simp] theorem setPc_draws (s : State) (a : Word) : (setPc s a).draws = s.draws := rfl

/-! `advancePc` -/

@[simp] theorem advancePc_V (s : State) : (advancePc s).V = s.V := rfl
@[simp] theorem advancePc_I (s : State) : (advancePc s).I = s.I := rfl
@[simp] theorem advancePc_pc (s : State) : (advancePc s).pc = s.pc + 2#16 := rfl
@[simp] theorem advancePc_stack (s : State) : (advancePc s).stack = s.stack := rfl
@[simp] theorem advancePc_fb (s : State) : (advancePc s).fb = s.fb := rfl
@[simp] theorem advancePc_mem (s : State) : (advancePc s).mem = s.mem := rfl
@[simp] theorem advancePc_DT (s : State) : (advancePc s).DT = s.DT := rfl
@[simp] theorem advancePc_ST (s : State) : (advancePc s).ST = s.ST := rfl
@[simp] theorem advancePc_rand8 (s : State) : (advancePc s).rand8 = s.rand8 := rfl
@[simp] theorem advancePc_draws (s : State) : (advancePc s).draws = s.draws := rfl

/-! `push` -/

@[simp] theorem push_V (s : State) (a : Word) : (push s a).V = s.V := rfl
@[simp] theorem push_I (s : State) (a : Word) : (push s a).I = s.I := rfl
@[simp] theorem push_pc (s : State) (a : Word) : (push s a).pc = s.pc := rfl
@[simp] theorem push_stack (s : State) (a : Word) : (push s a).stack = a :: s.stack := rfl
@[simp] theorem push_fb (s : State) (a : Word) : (push s a).fb = s.fb := rfl
@[simp] theorem push_mem (s : State) (a : Word) : (push s a).mem = s.mem := rfl
@[simp] theorem push_DT (s : State) (a : Word) : (push s a).DT = s.DT := rfl
@[simp] theorem push_ST (s : State) (a : Word) : (push s a).ST = s.ST := rfl
@[simp] theorem push_rand8 (s : State) (a : Word) : (push s a).rand8 = s.rand8 := rfl
@[simp] theorem push_draws (s : State) (a : Word) : (push s a).draws = s.draws := rfl

/-! `placeWordAtPc` -/

@[simp] theorem placeWordAtPc_V (s : State) (w : Word) : (placeWordAtPc s w).V = s.V := rfl
@[simp] theorem placeWordAtPc_I (s : State) (w : Word) : (placeWordAtPc s w).I = s.I := rfl
@[simp] theorem placeWordAtPc_pc (s : State) (w : Word) : (placeWordAtPc s w).pc = s.pc := rfl
@[simp] theorem placeWordAtPc_stack (s : State) (w : Word) : (placeWordAtPc s w).stack = s.stack := rfl
@[simp] theorem placeWordAtPc_fb (s : State) (w : Word) : (placeWordAtPc s w).fb = s.fb := rfl
@[simp] theorem placeWordAtPc_mem (s : State) (w : Word) : (placeWordAtPc s w).mem = (s.mem.write s.pc.toNat (highByte w)).write (s.pc.toNat + 1) (lowByte w) := rfl
@[simp] theorem placeWordAtPc_DT (s : State) (w : Word) : (placeWordAtPc s w).DT = s.DT := rfl
@[simp] theorem placeWordAtPc_ST (s : State) (w : Word) : (placeWordAtPc s w).ST = s.ST := rfl
@[simp] theorem placeWordAtPc_rand8 (s : State) (w : Word) : (placeWordAtPc s w).rand8 = s.rand8 := rfl
@[simp] theorem placeWordAtPc_draws (s : State) (w : Word) : (placeWordAtPc s w).draws = s.draws := rfl

/-! `supplyRand` -/

@[simp] theorem supplyRand_V (s : State) (r : Byte) : (supplyRand r s).V = s.V := rfl
@[simp] theorem supplyRand_I (s : State) (r : Byte) : (supplyRand r s).I = s.I := rfl
@[simp] theorem supplyRand_pc (s : State) (r : Byte) : (supplyRand r s).pc = s.pc := rfl
@[simp] theorem supplyRand_stack (s : State) (r : Byte) : (supplyRand r s).stack = s.stack := rfl
@[simp] theorem supplyRand_fb (s : State) (r : Byte) : (supplyRand r s).fb = s.fb := rfl
@[simp] theorem supplyRand_mem (s : State) (r : Byte) : (supplyRand r s).mem = s.mem := rfl
@[simp] theorem supplyRand_DT (s : State) (r : Byte) : (supplyRand r s).DT = s.DT := rfl
@[simp] theorem supplyRand_ST (s : State) (r : Byte) : (supplyRand r s).ST = s.ST := rfl
@[simp] theorem supplyRand_rand8 (s : State) (r : Byte) : (supplyRand r s).rand8 = r := rfl
@[simp] theorem supplyRand_draws (s : State) (r : Byte) : (supplyRand r s).draws = s.draws := rfl

/-! `nextRand` -/

@[simp] theorem nextRand_V (s : State) : (nextRand s).V = s.V := rfl
@[simp] theorem nextRand_I (s : State) : (nextRand s).I = s.I := rfl
@[simp] theorem nextRand_pc (s : State) : (nextRand s).pc = s.pc := rfl
@[simp] theorem nextRand_stack (s : State) : (nextRand s).stack = s.stack := rfl
@[simp] theorem nextRand_fb (s : State) : (nextRand s).fb = s.fb := rfl
@[simp] theorem nextRand_mem (s : State) : (nextRand s).mem = s.mem := rfl
@[simp] theorem nextRand_DT (s : State) : (nextRand s).DT = s.DT := rfl
@[simp] theorem nextRand_ST (s : State) : (nextRand s).ST = s.ST := rfl
@[simp] theorem nextRand_rand8 (s : State) : (nextRand s).rand8 = Config.randomByte (s.draws + 1) := rfl
@[simp] theorem nextRand_draws (s : State) : (nextRand s).draws = s.draws + 1 := rfl

/-! `setCell` -/

@[simp] theorem setCell_V (s : State) (x y : Nat) (b : Bool) : (setCell s x y b).V = s.V := rfl
@[simp] theorem setCell_I (s : State) (x y : Nat) (b : Bool) : (setCell s x y b).I = s.I := rfl
@[simp] theorem setCell_pc (s : State) (x y : Nat) (b : Bool) : (setCell s x y b).pc = s.pc := rfl
@[simp] theorem setCell_stack (s : State) (x y : Nat) (b : Bool) : (setCell s x y b).stack = s.stack := rfl
@[simp] theorem setCell_mem (s : State) (x y : Nat) (b : Bool) : (setCell s x y b).mem = s.mem := rfl
@[simp] theorem setCell_DT (s : State) (x y : Nat) (b : Bool) : (setCell s x y b).DT = s.DT := rfl
@[simp] theorem setCell_ST (s : State) (x y : Nat) (b : Bool) : (setCell s x y b).ST = s.ST := rfl
@[simp] theorem setCell_rand8 (s : State) (x y : Nat) (b : Bool) : (setCell s x y b).rand8 = s.rand8 := rfl
@[simp] theorem setCell_draws (s : State) (x y : Nat) (b : Bool) : (setCell s x y b).draws = s.draws := rfl

/-! `clearFb` -/

@[simp] theorem clearFb_V (s : State) : (clearFb s).V = s.V := rfl
@[simp] theorem clearFb_I (s : State) : (clearFb s).I = s.I := rfl
@[simp] theorem clearFb_pc (s : State) : (clearFb s).pc = s.pc := rfl
@[simp] theorem clearFb_stack (s : State) : (clearFb s).stack = s.stack := rfl
@[simp] theorem clearFb_fb (s : State) : (clearFb s).fb = 0#2048 := rfl
@[simp] theorem clearFb_mem (s : State) : (clearFb s).mem = s.mem := rfl
@[simp] theorem clearFb_DT (s : State) : (clearFb s).DT = s.DT := rfl
@[simp] theorem clearFb_ST (s : State) : (clearFb s).ST = s.ST := rfl
@[simp] theorem clearFb_rand8 (s : State) : (clearFb s).rand8 = s.rand8 := rfl
@[simp] theorem clearFb_draws (s : State) : (clearFb s).draws = s.draws := rfl

/-! `decDelay` -/

@[simp] theorem decDelay_V (s : State) : (decDelay s).V = s.V := rfl
@[simp] theorem decDelay_I (s : State) : (decDelay s).I = s.I := rfl
@[simp] theorem decDelay_pc (s : State) : (decDelay s).pc = s.pc := rfl
@[simp] theorem decDelay_stack (s : State) : (decDelay s).stack = s.stack := rfl
@[simp] theorem decDelay_fb (s : State) : (decDelay s).fb = s.fb := rfl
@[simp] theorem decDelay_mem (s : State) : (decDelay s).mem = s.mem := rfl
@[simp] theorem decDelay_DT (s : State) : (decDelay s).DT = decTimer s.DT := rfl
@[simp] theorem decDelay_ST (s : State) : (decDelay s).ST = s.ST := rfl
@[simp] theorem decDelay_rand8 (s : State) : (decDelay s).rand8 = s.rand8 := rfl
@[simp] theorem decDelay_draws (s : State) : (decDelay s).draws = s.draws := rfl

/-! `decSound` -/

@[simp] theorem decSound_V (s : State) : (decSound s).V = s.V := rfl
@[simp] theorem decSound_I (s : State) : (decSound s).I = s.I := rfl
@[simp] theorem decSound_pc (s : State) : (decSound s).pc = s.pc := rfl
@[simp] theorem decSound_stack (s : State) : (decSound s).stack = s.stack := rfl
@[simp] theorem decSound_fb (s : State) : (decSound s).fb = s.fb := rfl
@[simp] theorem decSound_mem (s : State) : (decSound s).mem = s.mem := rfl
@[simp] theorem decSound_DT (s : State) : (decSound s).DT = s.DT := rfl
@[simp] theorem decSound_ST (s : State) : (decSound s).ST = decTimer s.ST := rfl
@[simp] theorem decSound_rand8 (s : State) : (decSound s).rand8 = s.rand8 := rfl
@[simp] theorem decSound_draws (s : State) : (decSound s).draws = s.draws := rfl

/-! `skipIf` -/

@[simp] theorem skipIf_V (c : Bool) (s : State) : (skipIf c s).V = s.V := by cases c <;> rfl
@[simp] theorem skipIf_I (c : Bool) (s : State) : (skipIf c s).I = s.I := by cases c <;> rfl
@[simp] theorem skipIf_stack (c : Bool) (s : State) : (skipIf c s).stack = s.stack := by cases c <;> rfl
@[simp] theorem skipIf_fb (c : Bool) (s : State) : (skipIf c s).fb = s.fb := by cases c <;> rfl
@[simp] theorem skipIf_mem (c : Bool) (s : State) : (skipIf c s).mem = s.mem := by cases c <;> rfl
@[simp] theorem skipIf_DT (c : Bool) (s : State) : (skipIf c s).DT = s.DT := by cases c <;> rfl
@[simp] theorem skipIf_ST (c : Bool) (s : State) : (skipIf c s).ST = s.ST := by cases c <;> rfl
@[simp] theorem skipIf_rand8 (c : Bool) (s : State) : (skipIf c s).rand8 = s.rand8 := by cases c <;> rfl
@[simp] theorem skipIf_draws (c : Bool) (s : State) : (skipIf c s).draws = s.draws := by cases c <;> rfl

/-- Where a conditional skip leaves `pc` (R105 to R108). -/
@[simp] theorem skipIf_pc (c : Bool) (s : State) : (skipIf c s).pc = if c then s.pc + 2#16 else s.pc := by
  cases c <;> rfl

/-! Reading registers -/

/-- A register after a write holds the value written when it is the one written, and its old value otherwise. -/
theorem getV_setV (s : State) (j k : RegIdx) (b : Byte) : getV (setV s k b) j = if j = k then b else getV s j := by
  simp [getV, setV, Vector.getElem_set, Fin.ext_iff, eq_comm]

@[simp] theorem getV_setV_self (s : State) (k : RegIdx) (b : Byte) : getV (setV s k b) k = b := by
  simp [getV_setV]

@[simp] theorem getV_setV_ne (s : State) {j k : RegIdx} (h : j ≠ k) (b : Byte) : getV (setV s k b) j = getV s j := by
  simp [getV_setV, h]

/-- The flag register is register 15 (R24). -/
theorem setFlag_eq_setV (s : State) (b : Byte) : setFlag s b = setV s 15 b := rfl

theorem getV_setFlag (s : State) (j : RegIdx) (b : Byte) : getV (setFlag s b) j = if j = 15 then b else getV s j :=
  getV_setV s j 15 b

/-- Reading a register depends on the register file alone. -/
theorem getV_congr {s t : State} (h : t.V = s.V) (k : RegIdx) : getV t k = getV s k := by
  simp [getV, h]

@[simp] theorem getV_setI (s : State) (a : Word) (k : RegIdx) : getV (setI s a) k = getV s k := rfl
@[simp] theorem getV_setPc (s : State) (a : Word) (k : RegIdx) : getV (setPc s a) k = getV s k := rfl
@[simp] theorem getV_advancePc (s : State) (k : RegIdx) : getV (advancePc s) k = getV s k := rfl
@[simp] theorem getV_push (s : State) (a : Word) (k : RegIdx) : getV (push s a) k = getV s k := rfl
@[simp] theorem getV_supplyRand (r : Byte) (s : State) (k : RegIdx) : getV (supplyRand r s) k = getV s k := rfl
@[simp] theorem getV_nextRand (s : State) (k : RegIdx) : getV (nextRand s) k = getV s k := rfl
@[simp] theorem getV_setCell (s : State) (x y : Nat) (b : Bool) (k : RegIdx) : getV (setCell s x y b) k = getV s k := rfl
@[simp] theorem getV_clearFb (s : State) (k : RegIdx) : getV (clearFb s) k = getV s k := rfl
@[simp] theorem getV_skipIf (c : Bool) (s : State) (k : RegIdx) : getV (skipIf c s) k = getV s k :=
  getV_congr (skipIf_V c s) k

/-- Two states with the same registers by index have the same register file. -/
theorem V_ext {s t : State} (h : ∀ k, getV t k = getV s k) : t.V = s.V :=
  Vector.ext fun i hi => h ⟨i, hi⟩

/-! The call stack -/

/-- Everything `pop` can do: it gives nothing exactly on an empty stack, and else the top and the state without it. -/
theorem pop_eq_some {s s' : State} {a : Word} :
    pop s = some (a, s') ↔ ∃ rest, s.stack = a :: rest ∧ s' = { s with stack := rest } := by
  unfold pop
  split
  · simp [*]
  · rename_i b rest h
    simp [h, eq_comm]

theorem pop_eq_none {s : State} : pop s = none ↔ s.stack = [] := by
  unfold pop
  split <;> simp [*]

/-- `pop` after `push` gives back both the value and the state (R28: last in, first out). -/
theorem pop_push (s : State) (a : Word) : pop (push s a) = some (a, s) := rfl

/-! Faults -/

/-- `finish` answers a next state exactly when the computation did. -/
theorem finish_eq_next {r : Except Fault State} {t : State} : finish r = .next t ↔ r = .ok t := by
  cases r <;> simp [finish, raise]

theorem finish_eq_fault {r : Except Fault State} {f : Fault} : finish r = .fault f ↔ r = .error f := by
  cases r <;> simp [finish, raise]

/-- `finish` refuses nothing. -/
theorem finish_ne_refused {r : Except Fault State} {q : Refusal} : finish r ≠ .refused q := by
  cases r <;> simp [finish, raise]

end Sys2Proof.Machine
end

