-- ==== Sys2Proof/Laws/Memory.lean ====
section
/-! SUPPORT. Memory: what a read gives after each operation, that each operation keeps the canonical form, that canonical
memories that read alike are equal, and what the two reads and the fetch of the machine can answer. -/

namespace Sys2Proof.Machine

/-! ### Reads after writes -/

/-- A canonical memory reads as 0 below its first address. -/
theorem Memory.read_below {m : Memory} {lo : Nat} (h : m.wfFrom lo = true) (a : Nat) (ha : a < lo) : m.read a = 0#8 := by
  induction m generalizing lo with
  | nil => rfl
  | cons e m ih =>
    obtain ⟨p, q⟩ := e
    simp only [Memory.wfFrom, Config.memSize, Bool.and_eq_true, decide_eq_true_eq] at h
    simp only [Memory.read, show a ≠ p by omega, if_false]
    exact ih h.2 (by omega)

theorem Memory.read_insert (m : Memory) (addr : Nat) (b : Byte) (lo : Nat) (h : m.wfFrom lo = true) (a : Nat) :
    (m.insert addr b).read a = if a = addr then b else m.read a := by
  induction m generalizing lo with
  | nil =>
    by_cases hb : b = 0#8
    · simp [Memory.insert, Memory.read, hb]
    · simp [Memory.insert, Memory.read, hb]
  | cons e m ih =>
    obtain ⟨a', c⟩ := e
    simp only [Memory.wfFrom, Config.memSize, Bool.and_eq_true, decide_eq_true_eq] at h
    obtain ⟨⟨⟨h1, h2⟩, h3⟩, h4⟩ := h
    have htail := fun x hx => Memory.read_below h4 x hx
    have hread : ∀ x, Memory.read ((a', c) :: m) x = if x = a' then c else Memory.read m x := fun _ => rfl
    unfold Memory.insert
    split
    · rename_i hlt
      split
      · rename_i hb
        subst hb
        by_cases hx : a = addr
        · subst hx
          have h0 : Memory.read m a = 0#8 := htail a (by omega)
          simp [hread, h0, show a ≠ a' by omega]
        · simp [hx]
      · by_cases hx : a = addr <;> simp [Memory.read, hx]
    · split
      · rename_i hnlt heq
        subst heq
        split
        · rename_i hb
          subst hb
          by_cases hx : a = addr
          · subst hx
            have h0 : Memory.read m a = 0#8 := htail a (by omega)
            simp [h0]
          · simp [hread, hx]
        · by_cases hx : a = addr <;> simp [Memory.read, hx]
      · rename_i hnlt hne
        simp only [Memory.read]
        by_cases hx : a = a'
        · subst hx
          simp [show a ≠ addr by omega]
        · simp [hx, ih (a' + 1) h4]

/-- A write of a byte inside memory is read back there, and every other byte reads as before. -/
theorem Memory.read_write (m : Memory) (addr : Nat) (b : Byte) (h : m.wf = true) (a : Nat) :
    (m.write addr b).read a = if a = addr ∧ addr < 4096 then b else m.read a := by
  unfold Memory.write
  split
  · rename_i hlt
    simp only [Config.memSize] at hlt
    simp [Memory.read_insert m addr b 0 h, hlt]
  · rename_i hge
    simp only [Config.memSize] at hge
    simp [hge]

/-! ### The canonical form -/

theorem Memory.wfFrom_mono {m : Memory} {lo lo' : Nat} (h : m.wfFrom lo = true) (hle : lo' ≤ lo) :
    m.wfFrom lo' = true := by
  cases m with
  | nil => rfl
  | cons e m =>
    obtain ⟨a, b⟩ := e
    simp only [Memory.wfFrom, Bool.and_eq_true, decide_eq_true_eq] at h ⊢
    exact ⟨⟨⟨by omega, h.1.1.2⟩, h.1.2⟩, h.2⟩

theorem Memory.insert_wfFrom (m : Memory) (addr : Nat) (b : Byte) (lo : Nat) (h : m.wfFrom lo = true)
    (hlo : lo ≤ addr) (hlt : addr < 4096) : (m.insert addr b).wfFrom lo = true := by
  induction m generalizing lo with
  | nil =>
    by_cases hb : b = 0#8 <;> simp [Memory.insert, Memory.wfFrom, hb, hlo, hlt]
  | cons e m ih =>
    obtain ⟨a', c⟩ := e
    have h' := h
    simp only [Memory.wfFrom, Config.memSize, Bool.and_eq_true, decide_eq_true_eq] at h
    obtain ⟨⟨⟨h1, h2⟩, h3⟩, h4⟩ := h
    unfold Memory.insert
    split
    · rename_i hl
      split
      · exact h'
      · rename_i hb
        simp only [Memory.wfFrom, Config.memSize, Bool.and_eq_true, decide_eq_true_eq]
        exact ⟨⟨⟨hlo, hlt⟩, by simpa using hb⟩, ⟨⟨by omega, h2⟩, h3⟩, h4⟩
    · split
      · rename_i heq
        subst heq
        split
        · exact Memory.wfFrom_mono h4 (by omega)
        · rename_i hb
          simp only [Memory.wfFrom, Config.memSize, Bool.and_eq_true, decide_eq_true_eq]
          exact ⟨⟨⟨h1, h2⟩, by simpa using hb⟩, h4⟩
      · simp only [Memory.wfFrom, Config.memSize, Bool.and_eq_true, decide_eq_true_eq]
        exact ⟨⟨⟨h1, h2⟩, h3⟩, ih (a' + 1) h4 (by omega)⟩

/-- A write keeps the canonical form. -/
theorem Memory.write_wf (m : Memory) (addr : Nat) (b : Byte) (h : m.wf = true) : (m.write addr b).wf = true := by
  unfold Memory.write
  split
  · rename_i hlt
    exact Memory.insert_wfFrom m addr b 0 h (by omega) (by simpa using hlt)
  · exact h

/-- Bytes placed inside memory give a memory in canonical form. -/
theorem Memory.ofBytes_wfFrom (bs : List Byte) (addr : Nat) (h : addr + bs.length ≤ 4096) :
    (Memory.ofBytes addr bs).wfFrom addr = true := by
  induction bs generalizing addr with
  | nil => rfl
  | cons b bs ih =>
    simp only [List.length_cons] at h
    have htail := ih (addr + 1) (by omega)
    unfold Memory.ofBytes
    split
    · exact Memory.wfFrom_mono htail (by omega)
    · rename_i hb
      simp only [Memory.wfFrom, Config.memSize, Bool.and_eq_true, decide_eq_true_eq]
      exact ⟨⟨⟨le_refl _, by omega⟩, by simpa using hb⟩, htail⟩

theorem Memory.ofBytes_wf (bs : List Byte) (addr : Nat) (h : addr + bs.length ≤ 4096) :
    (Memory.ofBytes addr bs).wf = true :=
  Memory.wfFrom_mono (Memory.ofBytes_wfFrom bs addr h) (Nat.zero_le _)

/-- Memory lists nothing at reset. -/
theorem Memory.reset_wf : State.reset.mem.wf = true := rfl

/-- A canonical memory reads as 0 above 4095. -/
theorem Memory.read_above {m : Memory} {lo : Nat} (h : m.wfFrom lo = true) (a : Nat) (ha : 4096 ≤ a) : m.read a = 0#8 := by
  induction m generalizing lo with
  | nil => rfl
  | cons e m ih =>
    obtain ⟨p, q⟩ := e
    simp only [Memory.wfFrom, Config.memSize, Bool.and_eq_true, decide_eq_true_eq] at h
    simp only [Memory.read, show a ≠ p by omega, if_false]
    exact ih h.2

/-- Canonical memories that read alike at every address are the same list. -/
theorem Memory.eq_of_read_eq {m m' : Memory} (lo lo' : Nat) (h : m.wfFrom lo = true) (h' : m'.wfFrom lo' = true)
    (hr : ∀ a, m.read a = m'.read a) : m = m' := by
  induction m generalizing m' lo lo' with
  | nil =>
    cases m' with
    | nil => rfl
    | cons e m' =>
      obtain ⟨a, b⟩ := e
      simp only [Memory.wfFrom, Bool.and_eq_true] at h'
      have := hr a
      simp [Memory.read] at this
      simp [← this] at h'
  | cons e m ih =>
    obtain ⟨a, b⟩ := e
    simp only [Memory.wfFrom, Config.memSize, Bool.and_eq_true, decide_eq_true_eq] at h
    cases m' with
    | nil =>
      have := hr a
      simp [Memory.read] at this
      simp [this] at h
    | cons e' m' =>
      obtain ⟨a', b'⟩ := e'
      simp only [Memory.wfFrom, Bool.and_eq_true, decide_eq_true_eq] at h'
      have haa : a = a' := by
        rcases Nat.lt_trichotomy a a' with hlt | heq | hgt
        · exfalso
          have h1 := hr a
          have h2 := Memory.read_below h'.2 a (by omega)
          simp [Memory.read, show a ≠ a' by omega, h2] at h1
          simp [h1] at h
        · exact heq
        · exfalso
          have h1 := hr a'
          have h2 := Memory.read_below h.2 a' (by omega)
          simp [Memory.read, show a' ≠ a by omega, h2] at h1
          simp [← h1] at h'
      subst haa
      have hb : b = b' := by simpa [Memory.read] using hr a
      subst hb
      have : m = m' := by
        refine ih (a + 1) (a + 1) h.2 h'.2 fun x => ?_
        by_cases hx : x = a
        · subst hx
          rw [Memory.read_below h.2 x (by omega), Memory.read_below h'.2 x (by omega)]
        · simpa [Memory.read, hx] using hr x
      rw [this]

/-! ### Bytes placed by construction -/

/-- What a memory of placed bytes reads as: the byte placed there, and 0 elsewhere (R37). -/
theorem Memory.read_ofBytes (bs : List Byte) (addr a : Nat) :
    (Memory.ofBytes addr bs).read a = if addr ≤ a then bs.getD (a - addr) 0#8 else 0#8 := by
  induction bs generalizing addr with
  | nil => simp [Memory.ofBytes, Memory.read]
  | cons b bs ih =>
    have key : (if a = addr then b else if addr + 1 ≤ a then bs.getD (a - (addr + 1)) 0#8 else 0#8)
        = if addr ≤ a then (b :: bs).getD (a - addr) 0#8 else 0#8 := by
      by_cases h1 : a = addr
      · simp [h1]
      · by_cases h2 : addr ≤ a
        · obtain ⟨k, rfl⟩ : ∃ k, a = addr + 1 + k := ⟨a - (addr + 1), by omega⟩
          have e1 : addr + 1 + k - (addr + 1) = k := by omega
          have e2 : addr + 1 + k - addr = k + 1 := by omega
          simp only [e1, e2, h1, h2, if_true, if_false, show addr + 1 ≤ addr + 1 + k by omega]
          simp [List.getD]
        · simp [h1, h2, show ¬ addr + 1 ≤ a by omega]
    unfold Memory.ofBytes
    split
    · rename_i hb
      rw [ih, ← key]
      by_cases h1 : a = addr
      · simp [h1, hb]
      · simp [h1]
    · rw [Memory.read, ih, key]

/-! ### The machine's reads -/

/-- Everything a 1-byte read can answer (R54). -/
theorem memRead1_eq (s : State) (addr : Nat) :
    memRead1 s addr = if addr ≤ 4095 then .ok (s.mem.read addr) else .error .memoryOutOfBounds := by
  simp [memRead1, Nat.lt_succ_iff]

/-- Everything a fetch can answer: the word at `pc` and the state with `pc` advanced, or `MemoryOutOfBounds` (R91). -/
theorem fetch_of_canFetch {s : State} (h : s.canFetch) : fetch s = .ok (s.nextWord, advancePc s) := by
  unfold State.canFetch at h
  simp only [fetch, memRead2, h, if_true]
  rfl

theorem fetch_of_not_canFetch {s : State} (h : ¬ s.canFetch) : fetch s = .error .memoryOutOfBounds := by
  unfold State.canFetch at h
  simp only [fetch, memRead2, h, if_false]

end Sys2Proof.Machine
end

