-- ==== Sys2Proof/Laws/Framebuffer.lean ====
section
/-! SUPPORT. The framebuffer: what reading a cell gives after each write (spec/44_display.md), the frame of the sprite loop,
and what one row of it can answer. -/

namespace Sys2Proof.Machine

/-- The flat index of a cell of the grid is below 2048 (R30). -/
theorem cellIndex_lt {x y : Nat} (hx : x < 64) (hy : y < 32) : cellIndex x y < 2048 := by
  simp only [cellIndex, Config.fbWidth]
  omega

/-- Two cells of the grid with one flat index are the same cell (R30). -/
theorem cellIndex_inj {x y x' y' : Nat} (hx : x < 64) (hx' : x' < 64) (h : cellIndex x y = cellIndex x' y') :
    x = x' ∧ y = y' := by
  simp only [cellIndex, Config.fbWidth] at h
  omega

/-- Every flat index is the index of a cell of the grid. -/
theorem cellIndex_surj {k : Nat} (hk : k < 2048) : ∃ x y, x < 64 ∧ y < 32 ∧ cellIndex x y = k :=
  ⟨k % 64, k / 64, Nat.mod_lt _ (by omega), by omega, by simp only [cellIndex, Config.fbWidth]; omega⟩

/-- Framebuffers that read alike at every cell are equal. -/
theorem fb_ext {s t : State} (h : ∀ x y, x < 64 → y < 32 → getCell t x y = getCell s x y) : t.fb = s.fb := by
  refine BitVec.eq_of_getLsbD_eq fun k hk => ?_
  obtain ⟨x, y, hx, hy, rfl⟩ := cellIndex_surj hk
  exact h x y hx hy

/-- A cell after a write holds the value written when it is the cell written, and its old value otherwise. -/
theorem getCell_setCell (s : State) {x y x' y' : Nat} (hx : x < 64) (hy : y < 32) (hx' : x' < 64) (b : Bool) :
    getCell (setCell s x y b) x' y' = if x' = x ∧ y' = y then b else getCell s x' y' := by
  have hlt := cellIndex_lt hx hy
  by_cases hk : x' = x ∧ y' = y
  · obtain ⟨rfl, rfl⟩ := hk
    simp only [and_self, if_true, setCell]
    split
    · assumption
    · rename_i hne
      simp only [getCell, BitVec.getLsbD_xor, BitVec.getLsbD_twoPow, hlt, decide_true, Bool.and_self] at hne ⊢
      cases b <;> simp_all
  · have hidx : cellIndex x y ≠ cellIndex x' y' := fun h => hk ((cellIndex_inj hx hx' h).imp Eq.symm Eq.symm)
    simp only [hk, if_false, setCell]
    split
    · rfl
    · simp [getCell, BitVec.getLsbD_xor, BitVec.getLsbD_twoPow, hidx]

@[simp] theorem getCell_setV (s : State) (k : RegIdx) (b : Byte) (x y : Nat) :
    getCell (setV s k b) x y = getCell s x y := rfl
@[simp] theorem getCell_setFlag (s : State) (b : Byte) (x y : Nat) :
    getCell (setFlag s b) x y = getCell s x y := rfl

/-- Every cell reads false after a clear (R150). -/
@[simp] theorem getCell_clearFb (s : State) (x y : Nat) : getCell (clearFb s) x y = false := by
  simp [getCell]

/-! ### The sprite loop -/

/-- What no part of a draw changes: everything but the framebuffer and `VF` (R151). -/
structure DrawFrame (s t : State) : Prop where
  V : ∀ k, k ≠ 15 → getV t k = getV s k
  I : t.I = s.I
  pc : t.pc = s.pc
  stack : t.stack = s.stack
  mem : t.mem = s.mem
  DT : t.DT = s.DT
  ST : t.ST = s.ST
  rand8 : t.rand8 = s.rand8
  draws : t.draws = s.draws

theorem DrawFrame.refl (s : State) : DrawFrame s s := ⟨fun _ _ => rfl, rfl, rfl, rfl, rfl, rfl, rfl, rfl, rfl⟩

theorem DrawFrame.trans {s t u : State} (h : DrawFrame s t) (h' : DrawFrame t u) : DrawFrame s u :=
  ⟨fun k hk => (h'.V k hk).trans (h.V k hk), h'.I.trans h.I, h'.pc.trans h.pc, h'.stack.trans h.stack,
    h'.mem.trans h.mem, h'.DT.trans h.DT, h'.ST.trans h.ST, h'.rand8.trans h.rand8, h'.draws.trans h.draws⟩

theorem setFlag_frame (s : State) (b : Byte) : DrawFrame s (setFlag s b) :=
  ⟨fun k hk => by simp [getV_setFlag, hk], rfl, rfl, rfl, rfl, rfl, rfl, rfl, rfl⟩

theorem setCell_frame (s : State) (x y : Nat) (b : Bool) : DrawFrame s (setCell s x y b) :=
  ⟨fun _ _ => rfl, rfl, rfl, rfl, rfl, rfl, rfl, rfl, rfl⟩

theorem plotPixel_frame (x y : Nat) (s : State) : DrawFrame s (plotPixel x y s) := by
  unfold plotPixel
  dsimp only
  split
  · exact (setCell_frame s x y _).trans (setFlag_frame _ _)
  · exact setCell_frame s x y _

/-- The cell under a set sprite bit is inverted and no other cell changes (R152). -/
theorem getCell_plotPixel (s : State) {x y x' y' : Nat} (hx : x < 64) (hy : y < 32) (hx' : x' < 64) :
    getCell (plotPixel x y s) x' y' = (getCell s x' y' ^^ decide (x' = x ∧ y' = y)) := by
  have h : getCell (plotPixel x y s) x' y' = getCell (setCell s x y (!getCell s x y)) x' y' := by
    unfold plotPixel
    dsimp only
    split <;> rfl
  rw [h, getCell_setCell s hx hy hx']
  by_cases hk : x' = x ∧ y' = y
  · obtain ⟨rfl, rfl⟩ := hk
    simp
  · simp [hk]

/-- `VF` becomes 1 when the cell was on, and is left alone otherwise (R153). -/
theorem getV_flag_plotPixel (x y : Nat) (s : State) :
    getV (plotPixel x y s) 15 = if getCell s x y then 1#8 else getV s 15 := by
  unfold plotPixel
  dsimp only
  cases getCell s x y <;> simp [getV_setFlag]

theorem plotRow_frame (b : Byte) (x0 y left col : Nat) (s : State) : DrawFrame s (plotRow b x0 y left col s) := by
  induction left generalizing col s with
  | zero => exact DrawFrame.refl s
  | succ left ih =>
    unfold plotRow
    split
    · exact DrawFrame.refl s
    · refine DrawFrame.trans ?_ (ih _ _)
      split
      · exact plotPixel_frame _ _ s
      · exact DrawFrame.refl s

/-- Everything one turn of the row loop can answer (R154, R156): it stops at the bottom edge, it raises
`MemoryOutOfBounds` for a reached row above 4095, and else it plots the row and goes on. -/
theorem drawRows_succ (x0 y0 left row : Nat) (s : State) :
    drawRows x0 y0 (left + 1) row s =
      if 32 ≤ y0 + row then .ok s
      else if s.I.toNat + row ≤ 4095 then
        drawRows x0 y0 left (row + 1) (plotRow (s.mem.read (s.I.toNat + row)) x0 (y0 + row) 8 0 s)
      else .error .memoryOutOfBounds := by
  simp only [drawRows, memRead1_eq, Config.fbHeight, Config.spriteWidth]
  by_cases h : s.I.toNat + row ≤ 4095 <;> simp only [h, if_true, if_false]

/-- A draw that ends changes nothing but the framebuffer and `VF`. -/
theorem drawRows_frame {x0 y0 left row : Nat} {s t : State} (h : drawRows x0 y0 left row s = .ok t) :
    DrawFrame s t := by
  induction left generalizing row s with
  | zero =>
    simp only [drawRows, Except.ok.injEq] at h
    exact h ▸ DrawFrame.refl s
  | succ left ih =>
    rw [drawRows_succ] at h
    split at h
    · simp only [Except.ok.injEq] at h
      exact h ▸ DrawFrame.refl s
    · split at h
      · exact (plotRow_frame _ _ _ _ _ s).trans (ih h)
      · simp at h

/-- The only fault a draw can raise is `MemoryOutOfBounds` (R154). -/
theorem drawRows_fault {x0 y0 left row : Nat} {s : State} {f : Fault} (h : drawRows x0 y0 left row s = .error f) :
    f = .memoryOutOfBounds := by
  induction left generalizing row s with
  | zero => simp [drawRows] at h
  | succ left ih =>
    rw [drawRows_succ] at h
    split at h
    · simp at h
    · split at h
      · exact ih h
      · simpa [eq_comm] using h

end Sys2Proof.Machine
end

