-- ==== Sys2Proof/Laws/PerInstr.lean ====
section
/-! SUPPORT. Per-instruction statements. `FixedBits`: the encoding of each constructor carries the fixed bits of its row of
the opcode table (spec/30_encoding.md R74), so it selects that row. -/

namespace Sys2Proof.Laws.FixedBits

/-- The encoding of the instruction selects the instruction's own row of the opcode table. -/
def Statement (i : Instr) : Prop := i.row.selects (encode i) = true

/-- The rows with mask 0xF000 fix `first` alone. -/
theorem selects_first {w v : Word} {f : Nibble} (h : fieldFirst w = f) (hv : f.setWidth 16 <<< 12 = v) :
    (OpcodeRow.mk 0xF000#16 v).selects w = true := by
  subst h hv
  simp only [OpcodeRow.selects, beq_iff_eq]
  ext k hk
  simp only [fieldFirst, BitVec.getElem_and, BitVec.getElem_shiftLeft, BitVec.getElem_setWidth, BitVec.getLsbD_extractLsb']
  interval_cases k <;> simp

/-- The rows with mask 0xF00F fix `first` and `n`. -/
theorem selects_first_n {w v : Word} {f n : Nibble} (h : fieldFirst w = f) (h' : fieldN w = n)
    (hv : f.setWidth 16 <<< 12 ||| n.setWidth 16 = v) : (OpcodeRow.mk 0xF00F#16 v).selects w = true := by
  subst h h' hv
  simp only [OpcodeRow.selects, beq_iff_eq]
  ext k hk
  simp only [fieldFirst, fieldN, BitVec.getElem_and, BitVec.getElem_or, BitVec.getElem_shiftLeft, BitVec.getElem_setWidth,
    BitVec.getLsbD_extractLsb']
  interval_cases k <;> simp

theorem cls : Statement .cls := rfl
theorem ret : Statement .ret := rfl
theorem jp (nnn : Addr12) : Statement (.jp nnn) := selects_first (fieldFirst_formatNnn 0x1 nnn) (by decide)
theorem call (nnn : Addr12) : Statement (.call nnn) := selects_first (fieldFirst_formatNnn 0x2 nnn) (by decide)
theorem seImm (x : RegIdx) (nn : Byte) : Statement (.seImm x nn) := selects_first (fieldFirst_formatXnn 0x3 x nn) (by decide)
theorem sneImm (x : RegIdx) (nn : Byte) : Statement (.sneImm x nn) := selects_first (fieldFirst_formatXnn 0x4 x nn) (by decide)
theorem seReg (x y : RegIdx) : Statement (.seReg x y) :=
  selects_first_n (fieldFirst_formatXyn 0x5 x y 0x0) (fieldN_formatXyn 0x5 x y 0x0) (by decide)
theorem ldImm (x : RegIdx) (nn : Byte) : Statement (.ldImm x nn) := selects_first (fieldFirst_formatXnn 0x6 x nn) (by decide)
theorem addImm (x : RegIdx) (nn : Byte) : Statement (.addImm x nn) := selects_first (fieldFirst_formatXnn 0x7 x nn) (by decide)
theorem ldReg (x y : RegIdx) : Statement (.ldReg x y) :=
  selects_first_n (fieldFirst_formatXyn 0x8 x y 0x0) (fieldN_formatXyn 0x8 x y 0x0) (by decide)
theorem orReg (x y : RegIdx) : Statement (.orReg x y) :=
  selects_first_n (fieldFirst_formatXyn 0x8 x y 0x1) (fieldN_formatXyn 0x8 x y 0x1) (by decide)
theorem andReg (x y : RegIdx) : Statement (.andReg x y) :=
  selects_first_n (fieldFirst_formatXyn 0x8 x y 0x2) (fieldN_formatXyn 0x8 x y 0x2) (by decide)
theorem xorReg (x y : RegIdx) : Statement (.xorReg x y) :=
  selects_first_n (fieldFirst_formatXyn 0x8 x y 0x3) (fieldN_formatXyn 0x8 x y 0x3) (by decide)
theorem addReg (x y : RegIdx) : Statement (.addReg x y) :=
  selects_first_n (fieldFirst_formatXyn 0x8 x y 0x4) (fieldN_formatXyn 0x8 x y 0x4) (by decide)
theorem subReg (x y : RegIdx) : Statement (.subReg x y) :=
  selects_first_n (fieldFirst_formatXyn 0x8 x y 0x5) (fieldN_formatXyn 0x8 x y 0x5) (by decide)
theorem shr (x y : RegIdx) : Statement (.shr x y) :=
  selects_first_n (fieldFirst_formatXyn 0x8 x y 0x6) (fieldN_formatXyn 0x8 x y 0x6) (by decide)
theorem subnReg (x y : RegIdx) : Statement (.subnReg x y) :=
  selects_first_n (fieldFirst_formatXyn 0x8 x y 0x7) (fieldN_formatXyn 0x8 x y 0x7) (by decide)
theorem shl (x y : RegIdx) : Statement (.shl x y) :=
  selects_first_n (fieldFirst_formatXyn 0x8 x y 0xE) (fieldN_formatXyn 0x8 x y 0xE) (by decide)
theorem sneReg (x y : RegIdx) : Statement (.sneReg x y) :=
  selects_first_n (fieldFirst_formatXyn 0x9 x y 0x0) (fieldN_formatXyn 0x9 x y 0x0) (by decide)
theorem ldI (nnn : Addr12) : Statement (.ldI nnn) := selects_first (fieldFirst_formatNnn 0xA nnn) (by decide)
theorem jpV0 (nnn : Addr12) : Statement (.jpV0 nnn) := selects_first (fieldFirst_formatNnn 0xB nnn) (by decide)
theorem rnd (x : RegIdx) (nn : Byte) : Statement (.rnd x nn) := selects_first (fieldFirst_formatXnn 0xC x nn) (by decide)
theorem drw (x y : RegIdx) (n : Nibble) : Statement (.drw x y n) := selects_first (fieldFirst_formatXyn 0xD x y n) (by decide)
theorem illegalGroupE (low : Addr12) : Statement (.illegalGroupE low) := selects_first (fieldFirst_formatNnn 0xE low) (by decide)
theorem illegalGroupF (low : Addr12) : Statement (.illegalGroupF low) := selects_first (fieldFirst_formatNnn 0xF low) (by decide)

end Sys2Proof.Laws.FixedBits
end

