-- ==== Sys2Proof/Laws/Step.lean ====
section
/-! SUPPORT. The step: everything it can do once the fetch is inside memory, and the shape of a step that gives a next state
(spec/40_step_cycle.md R91 to R93). -/

namespace Sys2Proof.Machine

/-- A step whose instruction pair is inside memory: an undecodable word faults, and a decoded instruction runs on the state
with `pc` advanced. -/
theorem step_of_canFetch {s : State} (h : s.canFetch) :
    step s = match decodeWord s.nextWord with
      | .error _ => illegalOpcode (advancePc s)
      | .ok i => exec i (advancePc s) := by
  cases hd : decodeWord s.nextWord <;> simp [step, fetch_of_canFetch h, hd]

/-- A step that gives a next state executed an instruction, and the instruction gave that state. -/
theorem step_eq_next {s t : State} (h : step s = .next t) :
    ∃ i, s.executes i ∧ exec i (advancePc s) = .next t := by
  by_cases hf : s.canFetch
  · rw [step_of_canFetch hf] at h
    cases hd : decodeWord s.nextWord with
    | error r => simp [hd, illegalOpcode, raise] at h
    | ok i => exact ⟨i, ⟨hf, hd⟩, by simpa [hd] using h⟩
  · simp [step, fetch_of_not_canFetch hf, raise] at h

end Sys2Proof.Machine
end

