-- ==== Sys2Proof/Tests/Slice0.lean ====
section
/-! SUPPORT. The model's own tests: decoding by words written out from spec/30_encoding.md R74, the checks of WellFormed, single
steps whose results are those of spec/95_test_vectors.md, and for each statement that has hypotheses a state or word that meets
them. -/

namespace Sys2Proof.Tests

open Sys2Proof.Machine

/-! ### WellFormed: each check refuses an ill-formed term -/

theorem test_group_E_is_no_instruction : (Instr.illegalGroupE 0x09E).wellFormed = false := by decide
theorem test_group_F_is_no_instruction : (Instr.illegalGroupF 0x007).wellFormed = false := by decide
theorem test_drw_is_an_instruction : (Instr.drw 0xA 0xB 5).wellFormed = true := by decide
theorem test_oversize_image_is_ill_formed : romWellFormed (List.replicate 3585 0#8) = false := by
  rw [romWellFormed, List.length_replicate]
  rfl
theorem test_full_image_is_well_formed : romWellFormed (List.replicate 3584 0#8) = true := by
  rw [romWellFormed, List.length_replicate]
  rfl

/-! ### Decoding: one word for each constructor, written out digit by digit from the pattern column of R74 -/

theorem test_decode_cls : decodeWord 0b0000_0000_1110_0000#16 = .ok .cls := by decide
theorem test_decode_ret : decodeWord 0b0000_0000_1110_1110#16 = .ok .ret := by decide
theorem test_decode_jp : decodeWord 0b0001_1010_1011_1100#16 = .ok (.jp 0xABC) := by decide
theorem test_decode_call : decodeWord 0b0010_1010_1011_1100#16 = .ok (.call 0xABC) := by decide
theorem test_decode_seImm : decodeWord 0b0011_1010_0111_1111#16 = .ok (.seImm 10 0x7F) := by decide
theorem test_decode_sneImm : decodeWord 0b0100_1010_0111_1111#16 = .ok (.sneImm 10 0x7F) := by decide
theorem test_decode_seReg : decodeWord 0b0101_1010_1011_0000#16 = .ok (.seReg 10 11) := by decide
theorem test_decode_ldImm : decodeWord 0b0110_1010_0111_1111#16 = .ok (.ldImm 10 0x7F) := by decide
theorem test_decode_addImm : decodeWord 0b0111_1010_0111_1111#16 = .ok (.addImm 10 0x7F) := by decide
theorem test_decode_ldReg : decodeWord 0b1000_1010_1011_0000#16 = .ok (.ldReg 10 11) := by decide
theorem test_decode_orReg : decodeWord 0b1000_1010_1011_0001#16 = .ok (.orReg 10 11) := by decide
theorem test_decode_andReg : decodeWord 0b1000_1010_1011_0010#16 = .ok (.andReg 10 11) := by decide
theorem test_decode_xorReg : decodeWord 0b1000_1010_1011_0011#16 = .ok (.xorReg 10 11) := by decide
theorem test_decode_addReg : decodeWord 0b1000_1010_1011_0100#16 = .ok (.addReg 10 11) := by decide
theorem test_decode_subReg : decodeWord 0b1000_1010_1011_0101#16 = .ok (.subReg 10 11) := by decide
theorem test_decode_shr : decodeWord 0b1000_1010_1011_0110#16 = .ok (.shr 10 11) := by decide
theorem test_decode_subnReg : decodeWord 0b1000_1010_1011_0111#16 = .ok (.subnReg 10 11) := by decide
theorem test_decode_shl : decodeWord 0b1000_1010_1011_1110#16 = .ok (.shl 10 11) := by decide
theorem test_decode_sneReg : decodeWord 0b1001_1010_1011_0000#16 = .ok (.sneReg 10 11) := by decide
theorem test_decode_ldI : decodeWord 0b1010_0001_0010_0011#16 = .ok (.ldI 0x123) := by decide
theorem test_decode_jpV0 : decodeWord 0b1011_0011_0000_0000#16 = .ok (.jpV0 0x300) := by decide
theorem test_decode_rnd : decodeWord 0b1100_1010_0000_1111#16 = .ok (.rnd 10 0x0F) := by decide
theorem test_decode_drw : decodeWord 0b1101_1010_1011_0101#16 = .ok (.drw 10 11 5) := by decide
theorem test_decode_illegalGroupE : decodeWord 0b1110_0000_1001_1110#16 = .ok (.illegalGroupE 0x09E) := by decide
theorem test_decode_illegalGroupF : decodeWord 0b1111_0001_0101_0101#16 = .ok (.illegalGroupF 0x155) := by decide

/-- The refused words of spec/95_test_vectors.md section 4, one for each reason. -/
theorem test_decode_refuses :
    decodeWord 0x0000#16 = .error .noHandlerGroup0 ∧ decodeWord 0x01E0#16 = .error .noHandlerGroup0 ∧
    decodeWord 0x5AB1#16 = .error .noHandlerGroup5 ∧ decodeWord 0x8ABF#16 = .error .noHandlerGroup8 ∧
    decodeWord 0x9AB3#16 = .error .noHandlerGroup9 ∧ decodeBytes [0x12#8] = .error .truncated := by decide

/-- "with `Mem[0x200]` = 0x12 and `Mem[0x201]` = 0x34 the fetched word is 0x1234, `JP 0x234`" (section 4). -/
theorem test_decode_bytes_big_endian : decodeBytes [0x12#8, 0x34#8, 0x56#8] = .ok (.jp 0x234, [0x56#8]) := by decide

theorem test_decodeTableWord : decodeTableWord 16 0x8AB5 = some (.subReg 10 11) := by decide

/-! ### Single steps of spec/95_test_vectors.md section 2, from the reset state with the word at 0x200 -/

/-- The reset state with some registers set. -/
def withRegs (rs : List (RegIdx × Byte)) : State := rs.foldl (fun s r => setV s r.1 r.2) State.reset

/-- What one step of the word shows of the state after it, and nothing when the step does not give one. -/
def after {α : Type} (w : Nat) (s : State) (f : State → α) : Option α :=
  match step (s.withFetchWord 16 w) with
  | .next t => some (f t)
  | .fault _ => none
  | .refused _ => none

/-- The fault of one step of the word, if it faults. -/
def faultOf (w : Nat) (s : State) : Option Fault :=
  match step (s.withFetchWord 16 w) with
  | .next _ => none
  | .fault f => some f
  | .refused _ => none

/-- Some registers of a state. -/
def regs (ks : List RegIdx) (s : State) : List Byte := ks.map (getV s)

-- Section 2.1
theorem test_ldImm : after 0x6A03 State.reset (regs [10]) = some [0x03#8] := by decide
theorem test_addImm_wraps_and_keeps_VF :
    after 0x7001 (withRegs [(0, 0xFF#8), (15, 0x05#8)]) (regs [0, 15]) = some [0x00#8, 0x05#8] := by decide
theorem test_addImm_on_VF : after 0x7F01 (withRegs [(15, 0xFF#8)]) (regs [15]) = some [0x00#8] := by decide
theorem test_ldI : after 0xAFFF State.reset (·.I) = some 0xFFF#16 := by decide
theorem test_rnd_masks :
    after 0xC00F (supplyRand 0xA7#8 (withRegs [(0, 0xFF#8)])) (regs [0]) = some [0x07#8] := by decide

-- Section 2.2
theorem test_ldReg :
    after 0x8010 (withRegs [(0, 0x01#8), (1, 0xAB#8)]) (regs [0, 1]) = some [0xAB#8, 0xAB#8] := by decide
theorem test_or_keeps_VF :
    after 0x8011 (withRegs [(0, 0xF0#8), (1, 0x0F#8), (15, 1#8)]) (regs [0, 15]) = some [0xFF#8, 1#8] := by
  decide
theorem test_and_keeps_VF :
    after 0x8012 (withRegs [(0, 0xF0#8), (1, 0x3C#8), (15, 1#8)]) (regs [0, 15]) = some [0x30#8, 1#8] := by
  decide
theorem test_xor_keeps_VF :
    after 0x8013 (withRegs [(0, 0xF0#8), (1, 0x3C#8), (15, 1#8)]) (regs [0, 15]) = some [0xCC#8, 1#8] := by
  decide

-- Section 2.3
theorem test_add_carry :
    after 0x8014 (withRegs [(0, 0xFF#8), (1, 0x01#8)]) (regs [0, 15]) = some [0x00#8, 1#8] := by decide
theorem test_add_into_VF :
    after 0x8F14 (withRegs [(15, 0xFF#8), (1, 0x02#8)]) (regs [15]) = some [0x01#8] := by decide
theorem test_sub_equal_clears_flag :
    after 0x8015 (withRegs [(0, 0x07#8), (1, 0x07#8), (15, 1#8)]) (regs [0, 15]) = some [0x00#8, 0#8] := by
  decide
theorem test_sub_reads_new_flag :
    after 0x80F5 (withRegs [(0, 0x05#8), (15, 0x03#8)]) (regs [0, 15]) = some [0x04#8, 1#8] := by decide
theorem test_subn : after 0x8017 (withRegs [(0, 0x05#8), (1, 0x03#8)]) (regs [0, 15]) = some [0xFE#8, 0#8] := by
  decide
theorem test_subn_into_VF :
    after 0x8F17 (withRegs [(15, 0x03#8), (1, 0x05#8)]) (regs [15]) = some [0x04#8] := by decide

-- Section 2.4
theorem test_shr_ignores_y :
    after 0x80A6 (withRegs [(0, 0x05#8), (10, 0x33#8)]) (regs [0, 15, 10]) = some [0x02#8, 1#8, 0x33#8] := by
  decide
theorem test_shr_VF : after 0x8F16 (withRegs [(15, 0x03#8)]) (regs [15]) = some [0x00#8] := by decide
theorem test_shl_default_flag :
    after 0x801E (withRegs [(0, 0x81#8), (1, 0x55#8)]) (regs [0, 15, 1]) = some [0x02#8, 1#8, 0x55#8] := by
  decide
theorem test_shl_raw_flag : regs [0, 15] (shiftLeft true 0 (withRegs [(0, 0x81#8)])) = [0x02#8, 0x80#8] := by
  decide

-- Section 2.5
theorem test_seImm_skips : after 0x3012 (withRegs [(0, 0x12#8)]) (·.pc) = some 0x204#16 := by decide
theorem test_seImm_goes_on : after 0x3012 (withRegs [(0, 0x13#8)]) (·.pc) = some 0x202#16 := by decide
theorem test_sneImm_skips : after 0x4012 (withRegs [(0, 0x13#8)]) (·.pc) = some 0x204#16 := by decide
theorem test_seReg_same_register_skips : after 0x5000 (withRegs [(0, 0x07#8)]) (·.pc) = some 0x204#16 := by
  decide
theorem test_sneReg_skips : after 0x9010 (withRegs [(0, 0x07#8), (1, 0x08#8)]) (·.pc) = some 0x204#16 := by
  decide

-- Section 2.6
theorem test_jp_odd_target : after 0x1201 State.reset (·.pc) = some 0x201#16 := by decide
theorem test_call : after 0x2ABC { State.reset with stack := [0x0300#16] } (fun t => (t.pc, t.stack)) =
    some (0xABC#16, [0x0202#16, 0x0300#16]) := by decide
theorem test_ret : after 0x00EE { State.reset with stack := [0x0456#16, 0x0300#16] } (fun t => (t.pc, t.stack)) =
    some (0x456#16, [0x0300#16]) := by decide
theorem test_ret_empty : faultOf 0x00EE State.reset = some .stackUnderflow := by decide
theorem test_jpV0_not_reduced : after 0xBFFF (withRegs [(0, 0xFF#8)]) (·.pc) = some 0x10FE#16 := by decide
theorem test_jpV0_uses_V0 : after 0xBF00 (withRegs [(15, 0x55#8), (0, 0x01#8)]) (·.pc) = some 0xF01#16 := by
  decide

-- Section 2.7
/-- The state of section 2.7: `I` at 0x300 and one sprite byte there. -/
def withSprite (b : Byte) (rs : List (RegIdx × Byte)) : State :=
  { withRegs rs with I := 0x300#16, mem := [(0x300, b)] }

/-- Some cells of a state. -/
def cells (cs : List (Nat × Nat)) (s : State) : List Bool := cs.map fun c => getCell s c.1 c.2

theorem test_cls : after 0x00E0 { State.reset with fb := BitVec.twoPow 2048 2047 } (·.fb) = some 0#2048 := by
  decide +kernel
/-- "V0 = 7C (124), V1 = 21 (33)": cells (60,1) to (63,1) are on, nothing wraps, no collision. -/
theorem test_drw_clips : after 0xD011 (withSprite 0xFF#8 [(0, 0x7C#8), (1, 0x21#8), (15, 1#8)])
    (fun t => (t.fb.toNat, getV t 15)) = some (0xF * 2 ^ 124, 0#8) := by decide +kernel
/-- "Mem[0x300] = C0, cells (1,0) (2,0) on": cells (0,0) (2,0) on, (1,0) off, `VF` 1. -/
theorem test_drw_collides : after 0xD011 { withSprite 0xC0#8 [] with fb := 0b110#2048 }
    (fun t => (cells [(0, 0), (1, 0), (2, 0)] t, getV t 15)) = some ([true, false, true], 1#8) := by decide +kernel

-- Section 2.8
theorem test_illegal_groups_fault : faultOf 0xE09E State.reset = some .unimplementedOpcode ∧
    faultOf 0xF007 State.reset = some .unimplementedOpcode ∧ faultOf 0x01E0 State.reset = some .unimplementedOpcode := by
  decide
theorem test_drw_above_memory_faults : faultOf 0xD002 { State.reset with I := 0xFFF#16 } = some .memoryOutOfBounds := by
  decide
/-- "row 1 at y = 32 stops the draw: no fault". -/
theorem test_drw_height_test_first :
    after 0xD012 { withRegs [(1, 0x1F#8)] with I := 0xFFF#16 } (regs [15]) = some [0#8] := by decide
theorem test_fetch_above_memory_faults : step { State.reset with pc := 0xFFF#16 } = .fault .memoryOutOfBounds := rfl
theorem test_timer_stops_at_zero : decTimer 0#8 = 0#8 ∧ decTimer 5#8 = 4#8 := by decide

/-! ### States and words that meet the hypotheses of the statements -/

/-- A state about to execute the word at 0x200. -/
def atWord (w : Nat) (s : State) : State := s.withFetchWord 16 w

/-- `executes` as a check that can be evaluated. -/
theorem executes_of_check {s : State} {i : Instr}
    (h : (decide (s.pc.toNat + 1 < 4096) && decide (decodeWord s.nextWord = .ok i)) = true) : s.executes i := by
  simp only [Bool.and_eq_true, decide_eq_true_eq] at h
  exact h

/-- An outcome is a next state, as a check that can be evaluated. -/
def isNext : Host.Outcome State Fault Refusal → Bool
  | .next _ => true
  | .fault _ => false
  | .refused _ => false

theorem exists_next_of_check {o : Host.Outcome State Fault Refusal} (h : isNext o = true) : ∃ t, o = .next t := by
  cases o with
  | next t => exact ⟨t, rfl⟩
  | fault f => simp [isNext] at h
  | refused r => simp [isNext] at h

theorem witness_EncodeOfDecode : decodeWord 0x80F5#16 = .ok (.subReg 0 15) := by decide
theorem witness_ShiftIgnoresY : fieldFirst 0x80A6#16 = 0x8#4 ∧ fieldN 0x80A6#16 = 0x6#4 ∧ fieldN 0x80AE#16 = 0xE#4 ∧
    0x80A6#16 &&& 0xFF0F#16 = 0x8016#16 &&& 0xFF0F#16 ∧ 0x80AE#16 &&& 0xFF0F#16 = 0x80FE#16 &&& 0xFF0F#16 := by decide
theorem witness_StepRunsDecodedInstruction :
    let s := { State.reset with pc := 4094#16, mem := [(4094, 0x6A#8), (4095, 0x03#8)] }
    s.pc.toNat ≤ 4094 ∧ decodeBytes [s.mem.read s.pc.toNat, s.mem.read (s.pc.toNat + 1)] = .ok (.ldImm 10 3, []) := by
  decide
theorem witness_FetchOutsideMemoryFaults : 4094 < ({ State.reset with pc := 4095#16 } : State).pc.toNat := by decide
theorem witness_canFetch : State.reset.canFetch := by unfold State.canFetch; decide
theorem witness_IllegalWordFaults : legalWord State.reset.nextWord = false ∧
    legalWord (atWord 0x6A03 State.reset).nextWord = true := by decide
theorem witness_ReservedGroupsFault : fieldFirst 0xE09E#16 = 0xE#4 ∧ fieldFirst 0xFFFF#16 = 0xF#4 := by decide
/-- One faulting state for each clause of `StepFaultsExactly`. -/
theorem witness_StepFaultsExactly :
    step { State.reset with pc := 4095#16 } = .fault .memoryOutOfBounds ∧
    step { State.reset with pc := 4094#16 } = .fault .unimplementedOpcode ∧
    step (atWord 0x00EE State.reset) = .fault .stackUnderflow ∧
    step (atWord 0xD002 { State.reset with I := 0xFFF#16 }) = .fault .memoryOutOfBounds := ⟨rfl, rfl, rfl, rfl⟩
theorem witness_PcAfterEachInstruction :
    (atWord 0x1ABC State.reset).executes (.jp 0xABC) ∧ ∃ t, step (atWord 0x1ABC State.reset) = .next t :=
  ⟨executes_of_check (by decide), _, rfl⟩
theorem witness_ReturnPopsStack : State.reset.stack = [] ∧
    ({ State.reset with stack := [0x0456#16, 0x0300#16] } : State).stack = 0x0456#16 :: [0x0300#16] := ⟨rfl, rfl⟩
/-- A word of each group whose decoding a statement gives. -/
theorem witness_first : fieldFirst 0x1ABC#16 = 1#4 ∧ fieldFirst 0x2ABC#16 = 2#4 ∧ fieldFirst 0x3A7F#16 = 3#4 ∧
    fieldFirst 0x4A7F#16 = 4#4 ∧ fieldFirst 0x6A7F#16 = 6#4 ∧ fieldFirst 0x7A7F#16 = 7#4 ∧ fieldFirst 0xA123#16 = 0xA#4 ∧
    fieldFirst 0xB300#16 = 0xB#4 ∧ fieldFirst 0xCA0F#16 = 0xC#4 ∧ fieldFirst 0xDAB5#16 = 0xD#4 := by decide
theorem witness_SkipOnRegister : fieldFirst 0x5AB0#16 = 5#4 ∧ fieldN 0x5AB0#16 = 0#4 ∧ fieldFirst 0x5AB1#16 = 5#4 ∧
    fieldN 0x5AB1#16 ≠ 0#4 ∧ fieldFirst 0x9AB0#16 = 9#4 ∧ fieldN 0x9AB0#16 = 0#4 ∧ fieldFirst 0x9ABF#16 = 9#4 ∧
    fieldN 0x9ABF#16 ≠ 0#4 := by decide
theorem witness_group8 : fieldFirst 0x8AB0#16 = 8#4 ∧ fieldN 0x8AB0#16 = 0#4 ∧ fieldN 0x8AB1#16 = 1#4 ∧
    fieldN 0x8AB2#16 = 2#4 ∧ fieldN 0x8AB3#16 = 3#4 ∧ fieldN 0x8AB4#16 = 4#4 ∧ fieldN 0x8AB5#16 = 5#4 ∧
    fieldN 0x8AB6#16 = 6#4 ∧ fieldN 0x8AB7#16 = 7#4 ∧ fieldN 0x8ABE#16 = 0xE#4 ∧
    fieldFirst 0x8AB1#16 = 8#4 ∧ fieldFirst 0x8AB2#16 = 8#4 ∧ fieldFirst 0x8AB3#16 = 8#4 ∧ fieldFirst 0x8AB4#16 = 8#4 ∧
    fieldFirst 0x8AB5#16 = 8#4 ∧ fieldFirst 0x8AB6#16 = 8#4 ∧ fieldFirst 0x8AB7#16 = 8#4 ∧
    fieldFirst 0x8ABE#16 = 8#4 := by decide
/-- A call at 4094, whose return address is 4096, and a return with the stack as that call leaves it. -/
theorem witness_CallReturnLaw :
    (atWord 0x2208 { State.reset with pc := 4094#16 }).executes (.call 0x208) ∧
    (atWord 0x00EE { State.reset with stack := [4096#16] }).executes .ret ∧
    ∃ t, step (atWord 0x2208 { State.reset with pc := 4094#16 }) = .next t ∧
      (atWord 0x00EE { State.reset with stack := [4096#16] }).stack = t.stack :=
  ⟨executes_of_check (by decide), executes_of_check (by decide), _, rfl, rfl⟩
theorem witness_SubtractWithFlag : (1#8 : Byte) =
    if (getV (withRegs [(0, 5#8), (15, 3#8)]) 15).toNat < (getV (withRegs [(0, 5#8), (15, 3#8)]) 0).toNat then 1#8 else 0#8 := by
  decide
theorem witness_SubtractReversedWithFlag : (0#8 : Byte) =
    if (getV (withRegs [(0, 5#8), (15, 3#8)]) 0).toNat < (getV (withRegs [(0, 5#8), (15, 3#8)]) 15).toNat then 1#8 else 0#8 := by
  decide
theorem witness_alias_clauses : (0 : RegIdx) ≠ 15 ∧ (14 : RegIdx) ≠ 15 ∧ (15 : RegIdx) = 15 := by decide
theorem witness_AliasedFlagTable :
    getV (withRegs [(14, 0xFF#8), (15, 1#8)]) 14 = 0xFF#8 ∧ getV (withRegs [(14, 0xFF#8), (15, 1#8)]) 15 = 1#8 := by decide
theorem witness_FlagIsZeroOrOne : producesFlag (.drw 0 1 1) = true ∧ destination (.drw 0 1 1) ≠ some 15 ∧
    ∃ t, exec (.drw 0 1 1) State.reset = .next t := ⟨rfl, by decide, _, rfl⟩
theorem witness_FramebufferLayout : (63 : Nat) < 64 ∧ (31 : Nat) < 32 ∧ 31 * 64 + 63 = 2047 := by decide
/-- A draw whose last read row is the byte at 4095, and one that reaches 4096. -/
theorem witness_drawInBounds :
    drawInBounds { withRegs [(1, 0x1F#8)] with I := 0xFFF#16 } 1 2 ∧ ¬ drawInBounds { State.reset with I := 0xFFF#16 } 1 2 := by
  constructor
  · intro r _ hy
    have h31 : (getV { withRegs [(1, 0x1F#8)] with I := 0xFFF#16 } 1).toNat % 32 = 31 := by decide
    rw [h31] at hy
    show 4095 + r ≤ 4095
    omega
  · intro h
    exact absurd (h 1 (by decide) (by decide)) (by decide)
/-- A sprite that meets a lit cell, and one that meets none. -/
theorem witness_spriteMeets : spriteMeets true { withSprite 0xC0#8 [] with fb := 0b110#2048 } 0 1 1 ∧
    spriteMeets false { withSprite 0xC0#8 [] with fb := 0b110#2048 } 0 1 1 :=
  ⟨⟨1, 0, by decide, by decide, by decide, by decide +kernel⟩,
    ⟨0, 0, by decide, by decide, by decide, by decide +kernel⟩⟩
theorem witness_no_spriteMeets (b : Bool) (s : State) : ¬ spriteMeets b s 0 1 0 := by
  rintro ⟨cx, cy, -, -, h, -⟩
  simp only [spriteBit, Bool.and_eq_true, decide_eq_true_eq] at h
  have := h.1.2.2
  simp at this
  omega
theorem witness_DrawTwiceRestores : (0 : RegIdx) ≠ 15 ∧ (1 : RegIdx) ≠ 15 ∧
    ∃ t, exec (.drw 0 1 1) (withSprite 0xFF#8 []) = .next t := ⟨by decide, by decide, _, rfl⟩
theorem witness_MemReadIsBigEndianAndBounded : (4095 : Nat) ≤ 4095 ∧ 4095 < 4096 ∧ (4094 : Nat) ≤ 4094 ∧ 4094 < 4095 := by
  decide
theorem witness_PlacedWordIsFetched : State.reset.mem.wf = true ∧ State.reset.pc.toNat ≤ 4094 := by decide
theorem witness_Reachable : Reachable (State.ofImage [0x12#8, 0x00#8]) :=
  .constructed [0x12#8, 0x00#8] _ rfl
/-- An image that construction takes, and a step and a decrement that give a next state. -/
theorem witness_MemoryIsTheImage : ([0x12#8, 0x00#8] : List Byte).length ≤ 3584 ∧
    (∃ t, step (State.ofImage [0x12#8, 0x00#8]) = .next t) ∧
    ∃ t, HostOp.decDelay.run (State.ofImage [0x12#8, 0x00#8]) = .next t := ⟨by decide, ⟨_, rfl⟩, _, rfl⟩
theorem witness_ConstructedState : ([0x12#8, 0x00#8] : List Byte).length ≤ 3584 ∧
    ([0x12#8, 0x00#8] : List Byte)[0]? = some 0x12#8 := by decide
theorem witness_OversizeImageFaults :
    3584 < (List.replicate 3585 0#8).length ∧ (List.replicate 3584 0#8).length ≤ 3584 := by
  rw [List.length_replicate, List.length_replicate]
  decide
/-- A non-empty image that construction takes, with its `pc`. -/
theorem witness_ResetMeetsInvariant : ([0x12#8, 0x00#8] : List Byte).length ≤ 3584 ∧
    ∃ s, construct [0x12#8, 0x00#8] = .next s ∧ s.pc = 0x200#16 := ⟨by decide, _, rfl, rfl⟩
theorem witness_Inv : State.reset.Inv :=
  ⟨rfl, by decide, by decide, (fun _ h => by cases h), rfl, rfl⟩
/-- A state with the invariant at its bounds: `pc` at the last pair of memory, a stack entry of 4096, `I` at 4095. -/
def boundState : State :=
  { State.reset with pc := 4094#16, I := 4095#16, stack := [4096#16], mem := [(4095, 0xEE#8)] }

theorem witness_StepKeepsInvariant_Inv : boundState.Inv :=
  ⟨by decide, by decide, by decide, by simp [boundState], rfl, rfl⟩
theorem witness_StepKeepsInvariant_next : ∃ t, step boundState = .next t := exists_next_of_check (by decide)
/-- An operation that faults, and each of the three operations giving a next state. -/
theorem witness_FaultedEngineRefuses : (HostOp.step 0#8).run State.reset = .fault .unimplementedOpcode ∧
    (∃ t, (HostOp.step 0#8).run (atWord 0x1200 State.reset) = .next t) ∧
    (∃ t, HostOp.decDelay.run State.reset = .next t) ∧ ∃ t, HostOp.decSound.run State.reset = .next t :=
  ⟨rfl, ⟨_, rfl⟩, ⟨_, rfl⟩, _, rfl⟩
theorem witness_frames : (∃ t, exec (.subReg 0 1) State.reset = .next t) ∧ destination (.subReg 0 1) ≠ some 2 ∧
    (2 : RegIdx) ≠ 15 := ⟨⟨_, rfl⟩, by decide, by decide⟩
theorem witness_OnlyRandomReadsRand : ∀ x nn, ¬ (atWord 0x1200 State.reset).executes (.rnd x nn) := by
  intro x nn h
  have hj : decodeWord (atWord 0x1200 State.reset).nextWord = .ok (.jp 0x200) := by decide
  exact absurd (hj.symm.trans h.2) (by simp)
/-- A jump to itself, and a computed jump to itself. -/
theorem witness_FixedPointsAreSelfJumps :
    (atWord 0x1200 State.reset).executes (.jp 0x200) ∧ (0x200#12).toNat = (atWord 0x1200 State.reset).pc.toNat ∧
    (atWord 0xB1FF (withRegs [(0, 1#8)])).executes (.jpV0 0x1FF) ∧
    (0x1FF#12).toNat + (getV (atWord 0xB1FF (withRegs [(0, 1#8)])) 0).toNat
      = (atWord 0xB1FF (withRegs [(0, 1#8)])).pc.toNat ∧
    step (atWord 0x1200 State.reset) = .next (atWord 0x1200 State.reset) :=
  ⟨executes_of_check (by decide), by decide, executes_of_check (by decide), by decide, rfl⟩

end Sys2Proof.Tests
end

/-! # What an instruction that completes has changed (spec/00_scope.md R12, spec/10_state.md R20)

`Effect` says once what every instruction does to the state, up to the values that it leaves in its registers. What an
instruction leaves unchanged is read off it, field by field. -/

namespace Sys2Proof.Machine

/-- How an instruction changes the state, up to the bytes written to its registers. `Effect i s t` holds whenever
`exec i s` answers the next state `t` (`exec_effect`). -/
inductive Effect : Instr → State → State → Prop where
  /-- The loads, the logic operations and the immediate add write `Vx` alone. -/
  | register {i : Instr} {x : RegIdx} (s : State) (b : Byte) (hx : destination i = some x) : Effect i s (setV s x b)
  /-- The five flag-producing ALU instructions write `VF`, then `Vx` (R130). -/
  | flagThenRegister {i : Instr} {x : RegIdx} (s : State) (f b : Byte) (hx : destination i = some x)
      (hf : producesFlag i = true) : Effect i s (setV (setFlag s f) x b)
  /-- CXNN writes `Vx` and uses up the supplied byte (R123). -/
  | random (x : RegIdx) (nn : Byte) (s : State) (b : Byte) : Effect (.rnd x nn) s (nextRand (setV s x b))
  /-- The four conditional skips move `pc` alone (R105 to R108). -/
  | skip (i : Instr) (c : Bool) (s : State) : Effect i s (skipIf c s)
  | jump (nnn : Addr12) (s : State) : Effect (.jp nnn) s (setPc s (addrOperand nnn))
  | indexedJump (nnn : Addr12) (s : State) : Effect (.jpV0 nnn) s (setPc s (indexedTarget s nnn))
  | call (nnn : Addr12) (s : State) : Effect (.call nnn) s (setPc (push s s.pc) (addrOperand nnn))
  | ret {s : State} {a : Word} {rest : List Word} (hs : s.stack = a :: rest) :
      Effect .ret s (setPc { s with stack := rest } a)
  | loadI (nnn : Addr12) (s : State) : Effect (.ldI nnn) s (setI s (addrOperand nnn))
  | clear (s : State) : Effect .cls s (clearFb s)
  /-- DXYN writes the framebuffer and `VF` (R151). -/
  | draw {x y : RegIdx} {n : Nibble} {s t : State} (hf : DrawFrame s t) : Effect (.drw x y n) s t

/-! ### The two instructions that may fault and may complete -/

/-- 00EE completes exactly on a stack that is not empty, and takes its top into `pc` (R100). -/
theorem exec_ret_eq_next {s t : State} :
    exec .ret s = .next t ↔ ∃ a rest, s.stack = a :: rest ∧ t = setPc { s with stack := rest } a := by
  change execRet s = .next t ↔ _
  unfold execRet
  cases hs : s.stack with
  | nil => simp [pop_eq_none.2 hs, raise]
  | cons a rest => simp [pop_eq_some.2 ⟨rest, hs, rfl⟩, eq_comm]

/-- DXYN that completes has changed nothing but the framebuffer and `VF` (R151). -/
theorem exec_drw_frame {x y : RegIdx} {n : Nibble} {s t : State} (h : exec (.drw x y n) s = .next t) :
    DrawFrame s t :=
  (setFlag_frame s 0#8).trans (drawRows_frame (finish_eq_next.1 h))

/-! ### Every instruction -/

open Host.Outcome in
/-- Every instruction that answers a next state has one of the effects of `Effect`. -/
theorem exec_effect {i : Instr} {s t : State} (h : exec i s = .next t) : Effect i s t := by
  cases i with
  | cls => exact next.inj h ▸ .clear s
  | ret =>
    obtain ⟨a, rest, hs, rfl⟩ := exec_ret_eq_next.1 h
    exact .ret hs
  | jp nnn => exact next.inj h ▸ .jump nnn s
  | call nnn => exact next.inj h ▸ .call nnn s
  | seImm x nn => exact next.inj h ▸ .skip _ _ s
  | sneImm x nn => exact next.inj h ▸ .skip _ _ s
  | seReg x y => exact next.inj h ▸ .skip _ _ s
  | ldImm x nn => exact next.inj h ▸ .register s _ rfl
  | addImm x nn => exact next.inj h ▸ .register s _ rfl
  | ldReg x y => exact next.inj h ▸ .register s _ rfl
  | orReg x y => exact next.inj h ▸ .register s _ rfl
  | andReg x y => exact next.inj h ▸ .register s _ rfl
  | xorReg x y => exact next.inj h ▸ .register s _ rfl
  | addReg x y => exact next.inj h ▸ .flagThenRegister s _ _ rfl rfl
  | subReg x y => exact next.inj h ▸ .flagThenRegister s _ _ rfl rfl
  | shr x y => exact next.inj h ▸ .flagThenRegister s _ _ rfl rfl
  | subnReg x y => exact next.inj h ▸ .flagThenRegister s _ _ rfl rfl
  | shl x y => exact next.inj h ▸ .flagThenRegister s _ _ rfl rfl
  | sneReg x y => exact next.inj h ▸ .skip _ _ s
  | ldI nnn => exact next.inj h ▸ .loadI nnn s
  | jpV0 nnn => exact next.inj h ▸ .indexedJump nnn s
  | rnd x nn => exact next.inj h ▸ .random x nn s _
  | drw x y n => exact .draw (exec_drw_frame h)
  | illegalGroupE low => nomatch h
  | illegalGroupF low => nomatch h

/-! ### What an effect leaves unchanged -/

theorem ne_of_destination {i : Instr} {x k : RegIdx} (hx : destination i = some x) (hk : destination i ≠ some k) :
    k ≠ x := by
  rintro rfl
  exact hk hx

namespace Effect

variable {i : Instr} {s t : State}

/-- A register keeps its value unless it is the destination, or is `VF` of an instruction that produces a flag (R24). -/
theorem getV_eq (h : Effect i s t) {k : RegIdx} (hk : destination i ≠ some k) (hf : producesFlag i = true → k ≠ 15) :
    getV t k = getV s k := by
  cases h with
  | register s b hx => exact getV_setV_ne s (ne_of_destination hx hk) b
  | flagThenRegister s f b hx hflag =>
    rw [getV_setV_ne _ (ne_of_destination hx hk), getV_setFlag, if_neg (hf hflag)]
  | random x nn s b => exact getV_setV_ne s (ne_of_destination (i := .rnd x nn) rfl hk) b
  | skip i c s => exact getV_skipIf c s k
  | draw hd => exact hd.V k (hf rfl)
  | _ => rfl

/-- Only ANNN writes `I` (R122). -/
theorem I_eq (h : Effect i s t) (hi : ∀ nnn, i ≠ .ldI nnn) : t.I = s.I := by
  cases h with
  | loadI nnn s => exact absurd rfl (hi nnn)
  | draw hd => exact hd.I
  | _ => simp

/-- Only 00EE and 2NNN write the stack (R100, R102). -/
theorem stack_eq (h : Effect i s t) (hret : i ≠ .ret) (hcall : ∀ nnn, i ≠ .call nnn) : t.stack = s.stack := by
  cases h with
  | call nnn s => exact absurd rfl (hcall nnn)
  | ret hs => exact absurd rfl hret
  | draw hd => exact hd.stack
  | _ => simp

/-- Only 00E0 and DXYN write the framebuffer (R31). -/
theorem fb_eq (h : Effect i s t) (hcls : i ≠ .cls) (hdrw : ∀ x y n, i ≠ .drw x y n) : t.fb = s.fb := by
  cases h with
  | clear s => exact absurd rfl hcls
  | draw hd => exact absurd rfl (hdrw _ _ _)
  | _ => simp

/-- No instruction writes memory (R56). -/
theorem mem_eq (h : Effect i s t) : t.mem = s.mem := by
  cases h with
  | draw hd => exact hd.mem
  | _ => simp

/-- No instruction writes a timer (R20, R33). -/
theorem timers_eq (h : Effect i s t) : sameTimers s t := by
  cases h with
  | draw hd => exact ⟨hd.DT, hd.ST⟩
  | _ => simp [sameTimers]

end Effect

/-- Settles O48: every register write of an instruction is the one of its destination or the one of its flag. -/
theorem registerFrame : Obligations.RegisterFrame := fun _ _ _ _ h hk hf => (exec_effect h).getV_eq hk hf

/-- Settles O49, field by field from the instruction's effect. -/
theorem specialStateFrame : Obligations.SpecialStateFrame := by
  intro i s t h
  have he := exec_effect h
  exact ⟨he.I_eq, he.stack_eq, he.fb_eq, fun a => by rw [he.mem_eq], he.timers_eq⟩

end Sys2Proof.Machine

/-! # The bounds of every state an engine reaches (spec/10_state.md R26, R27, R28, R33)

The step's `pc` bound comes in two parts: a fetch inside memory leaves `pc` at most 4096, and from there an instruction
moves it to an `nnn`, an `nnn` plus a byte, a stack entry, or at most 2 further. -/

namespace Sys2Proof.Machine

/-! ### Targets as numbers -/

theorem addrOperand_toNat (nnn : Addr12) : (addrOperand nnn).toNat = nnn.toNat :=
  BitVec.toNat_setWidth_of_le (by omega)

theorem addrOperand_le (nnn : Addr12) : (addrOperand nnn).toNat ≤ 4095 := by
  have := nnn.isLt
  rw [addrOperand_toNat]
  omega

/-- The target of BNNN is the sum itself: at most 4095 + 255, it does not wrap (R104). -/
theorem indexedTarget_toNat (s : State) (nnn : Addr12) : (indexedTarget s nnn).toNat = nnn.toNat + (getV s 0).toNat := by
  have := nnn.isLt
  have := (getV s 0).isLt
  have hoff : (offsetOperand s 0).toNat = (getV s 0).toNat := BitVec.toNat_setWidth_of_le (by omega)
  rw [indexedTarget, BitVec.toNat_add, addrOperand_toNat, hoff]
  omega

theorem indexedTarget_le (s : State) (nnn : Addr12) : (indexedTarget s nnn).toNat ≤ 4350 := by
  have := nnn.isLt
  have := (getV s 0).isLt
  rw [indexedTarget_toNat]
  omega

/-! ### The fetch -/

/-- A fetch inside memory leaves `pc` at most 4096, since it read the byte before (R91). -/
theorem advancePc_pc_le {s : State} (h : s.canFetch) : (advancePc s).pc.toNat ≤ 4096 := by
  have hpc : s.pc.toNat + 1 < 4096 := h
  rw [advancePc_pc, BitVec.toNat_add]
  simp only [BitVec.toNat_ofNat]
  omega

theorem advancePc_inv {s : State} (hs : s.Inv) (h : s.canFetch) : (advancePc s).Inv :=
  { hs with pc_le := (advancePc_pc_le h).trans (by omega) }

/-! ### The instruction -/

namespace Effect

variable {i : Instr} {s t : State}

/-- `I` is an `nnn` or what it was (R27). -/
theorem I_le (h : Effect i s t) (hs : s.Inv) : t.I.toNat ≤ 4095 := by
  cases h with
  | loadI nnn s => exact addrOperand_le nnn
  | draw hd => exact hd.I ▸ hs.I_le
  | _ => simpa using hs.I_le

/-- After a fetch, `pc` goes to a target, to a stack entry, or on by at most 2 (R26). -/
theorem pc_le (h : Effect i s t) (hs : s.Inv) (hpc : s.pc.toNat ≤ 4096) : t.pc.toNat ≤ 4350 := by
  cases h with
  | skip i c s =>
    have hskip : (s.pc + 2#16).toNat ≤ 4098 := by bv_omega
    rw [skipIf_pc]
    split <;> omega
  | jump nnn s => exact (addrOperand_le nnn).trans (by omega)
  | indexedJump nnn s => exact indexedTarget_le s nnn
  | call nnn s => exact (addrOperand_le nnn).trans (by omega)
  | ret hstack => exact (hs.stack_le _ (hstack ▸ List.mem_cons_self)).trans (by omega)
  | draw hd => exact hd.pc ▸ hs.pc_le
  | _ => simpa using hs.pc_le

/-- After a fetch, the stack holds what it held and perhaps the return address of a call (R28, R102). -/
theorem stack_le (h : Effect i s t) (hs : s.Inv) (hpc : s.pc.toNat ≤ 4096) : ∀ a ∈ t.stack, a.toNat ≤ 4096 := by
  cases h with
  | call nnn s => exact List.forall_mem_cons.2 ⟨hpc, hs.stack_le⟩
  | ret hstack => exact fun a ha => hs.stack_le a (hstack ▸ List.mem_cons_of_mem _ ha)
  | draw hd => exact hd.stack ▸ hs.stack_le
  | _ => simpa using hs.stack_le

theorem inv (h : Effect i s t) (hs : s.Inv) (hpc : s.pc.toNat ≤ 4096) : t.Inv where
  mem_wf := h.mem_eq ▸ hs.mem_wf
  I_le := h.I_le hs
  pc_le := h.pc_le hs hpc
  stack_le := h.stack_le hs hpc
  DT_zero := h.timers_eq.1.trans hs.DT_zero
  ST_zero := h.timers_eq.2.trans hs.ST_zero

end Effect

/-- Settles O52: the fetch keeps the invariant and bounds `pc` by 4096, and every effect keeps it from there. -/
theorem stepKeepsInvariant : Obligations.StepKeepsInvariant := by
  intro s t hs h
  obtain ⟨i, ⟨hfetch, -⟩, hexec⟩ := step_eq_next h
  exact (exec_effect hexec).inv (advancePc_inv hs hfetch) (advancePc_pc_le hfetch)

/-! ### Construction -/

theorem construct_of_le {rom : List Byte} (h : rom.length ≤ 3584) : construct rom = .next (State.ofImage rom) := by
  simp [construct, romWellFormed, h]

theorem construct_of_lt {rom : List Byte} (h : 3584 < rom.length) : construct rom = .fault .constructionOversize := by
  simp [construct, romWellFormed, raise, h]

/-- Construction answers a next state exactly for an image that fits, and it is that image's (R175, R201). -/
theorem construct_eq_next {rom : List Byte} {s : State} :
    construct rom = .next s ↔ rom.length ≤ 3584 ∧ s = State.ofImage rom := by
  by_cases h : rom.length ≤ 3584
  · simp [construct_of_le h, h, eq_comm]
  · simp [construct_of_lt (not_le.1 h), h]

theorem getV_ofImage (rom : List Byte) (k : RegIdx) : getV (State.ofImage rom) k = 0#8 :=
  Vector.getElem_replicate k.isLt

theorem getCell_ofImage (rom : List Byte) (x y : Nat) : getCell (State.ofImage rom) x y = false :=
  BitVec.getLsbD_zero

/-- Memory after construction: the image from 0x200 on, and 0 elsewhere (R37). -/
theorem read_ofImage (rom : List Byte) (a : Nat) :
    (State.ofImage rom).mem.read a = if 0x200 ≤ a then rom.getD (a - 0x200) 0#8 else 0#8 :=
  Memory.read_ofBytes rom 0x200 a

theorem read_ofImage_of_lt (rom : List Byte) {a : Nat} (h : a < 0x200) : (State.ofImage rom).mem.read a = 0#8 := by
  rw [read_ofImage, if_neg (by omega)]

theorem read_ofImage_of_getElem? {rom : List Byte} {k : Nat} {b : Byte} (h : rom[k]? = some b) :
    (State.ofImage rom).mem.read (0x200 + k) = b := by
  simp [read_ofImage, h]

theorem read_ofImage_of_length_le {rom : List Byte} {a : Nat} (h : 0x200 + rom.length ≤ a) :
    (State.ofImage rom).mem.read a = 0#8 := by
  rw [read_ofImage, if_pos (by omega), List.getD_eq_default _ _ (by omega)]

theorem reset_inv : State.reset.Inv where
  mem_wf := Memory.reset_wf
  I_le := by decide
  pc_le := by decide
  stack_le := fun _ ha => nomatch ha
  DT_zero := rfl
  ST_zero := rfl

/-- An image that fits gives canonical memory, and the rest of its state is that of reset. -/
theorem ofImage_inv {rom : List Byte} (h : rom.length ≤ 3584) : (State.ofImage rom).Inv :=
  { reset_inv with mem_wf := Memory.ofBytes_wf rom 0x200 (by omega) }

/-- Settles O43: the state is that of the image, and each clause is what one of its fields holds. -/
theorem constructedState : Obligations.ConstructedState := fun rom h =>
  ⟨State.ofImage rom, construct_of_le h, getV_ofImage rom, rfl, rfl, rfl, fun x y _ _ => getCell_ofImage rom x y,
    fun _ => read_ofImage_of_lt rom, fun _ _ => read_ofImage_of_getElem?, fun _ => read_ofImage_of_length_le, rfl, rfl⟩

/-- Settles O45: construction changes nothing of the reset state but memory, and the empty image not even that. -/
theorem resetMeetsInvariant : Obligations.ResetMeetsInvariant :=
  ⟨fun rom h => ⟨State.ofImage rom, construct_of_le h, rfl⟩, rfl, rfl, reset_inv⟩

/-! ### The host's operations -/

theorem supplyRand_inv {s : State} (hs : s.Inv) (r : Byte) : (supplyRand r s).Inv :=
  { hs with }

/-- A timer that is 0 stays 0 (R184). -/
theorem decDelay_inv {s : State} (hs : s.Inv) : (decDelay s).Inv :=
  { hs with DT_zero := by simp [decTimer, hs.DT_zero] }

theorem decSound_inv {s : State} (hs : s.Inv) : (decSound s).Inv :=
  { hs with ST_zero := by simp [decTimer, hs.ST_zero] }

/-- Every operation of the host that gives a next state keeps the invariant. -/
theorem HostOp.run_inv {s t : State} {op : HostOp} (hs : s.Inv) (h : op.run s = .next t) : t.Inv := by
  cases op with
  | step r => exact stepKeepsInvariant _ t (supplyRand_inv hs r) h
  | decDelay => exact Host.Outcome.next.inj h ▸ decDelay_inv hs
  | decSound => exact Host.Outcome.next.inj h ▸ decSound_inv hs

/-- Settles O53, by induction on how the state was reached. -/
theorem reachableMeetsInvariant : Obligations.ReachableMeetsInvariant := by
  intro s h
  induction h with
  | constructed rom s hc =>
    obtain ⟨hlen, rfl⟩ := construct_eq_next.1 hc
    exact ofImage_inv hlen
  | operated s s' op _ hrun ih => exact HostOp.run_inv ih hrun

end Sys2Proof.Machine

/-! # The flag and the framebuffer cells (spec/10_state.md R24, R30) -/

namespace Sys2Proof.Machine

/-! ### Flag values are 0 or 1 -/

/-- A byte that is 0 or 1, as every flag is by default (R24). -/
def IsFlag (b : Byte) : Prop := b = 0#8 ∨ b = 1#8

theorem isFlag_flagOf (c : Bool) : IsFlag (flagOf c) := by
  cases c
  · exact .inl rfl
  · exact .inr rfl

theorem isFlag_and_one (a : Byte) : IsFlag (a &&& 1#8) := by
  have hmod : (a &&& 1#8).toNat = a.toNat % 2 := by simp [Nat.and_one_is_mod]
  rcases Nat.mod_two_eq_zero_or_one a.toNat with h | h
  · exact .inl (BitVec.eq_of_toNat_eq (hmod.trans h))
  · exact .inr (BitVec.eq_of_toNat_eq (hmod.trans h))

theorem isFlag_carryFlag (a b : Byte) : IsFlag (carryFlag a b) := isFlag_flagOf _

theorem isFlag_greaterFlag (a b : Byte) : IsFlag (greaterFlag a b) := isFlag_flagOf _

theorem isFlag_lowBitFlag (a : Byte) : IsFlag (lowBitFlag a) := isFlag_and_one a

/-- With the default of `SHL_FLAG_RAW` the bit shifted out comes as 0 or 1 (R139, D6). -/
theorem isFlag_highBitFlag (a : Byte) : IsFlag (highBitFlag Config.shlFlagRaw a) := isFlag_and_one (a >>> 7)

/-! ### What a draw keeps -/

/-- What every plotted pixel keeps, a sprite row keeps. -/
theorem plotRow_keeps {P : State → Prop} (hP : ∀ x y s, P s → P (plotPixel x y s)) (b : Byte) (x0 y left col : Nat)
    {s : State} (hs : P s) : P (plotRow b x0 y left col s) := by
  induction left generalizing col s with
  | zero => exact hs
  | succ left ih =>
    unfold plotRow
    split
    · exact hs
    · refine ih _ ?_
      split
      · exact hP _ _ s hs
      · exact hs

/-- What every plotted pixel keeps, a draw that ends keeps. -/
theorem drawRows_keeps {P : State → Prop} (hP : ∀ x y s, P s → P (plotPixel x y s)) {x0 y0 left row : Nat}
    {s t : State} (h : drawRows x0 y0 left row s = .ok t) (hs : P s) : P t := by
  induction left generalizing row s with
  | zero => exact Except.ok.inj h ▸ hs
  | succ left ih =>
    rw [drawRows_succ] at h
    split at h
    · exact Except.ok.inj h ▸ hs
    · split at h
      · exact ih h (plotRow_keeps hP _ _ _ _ _ hs)
      · nomatch h

/-- A plotted pixel leaves `VF` alone or makes it 1 (R153). -/
theorem isFlag_plotPixel (x y : Nat) (s : State) (h : IsFlag (getV s 15)) : IsFlag (getV (plotPixel x y s) 15) := by
  rw [getV_flag_plotPixel]
  split
  · exact .inr rfl
  · exact h

/-- DXYN starts from `VF` 0 (R151), so it ends with 0 or 1. -/
theorem isFlag_exec_drw {x y : RegIdx} {n : Nibble} {s t : State} (h : exec (.drw x y n) s = .next t) :
    IsFlag (getV t 15) :=
  drawRows_keeps (P := fun s => IsFlag (getV s 15)) isFlag_plotPixel (finish_eq_next.1 h)
    (.inl (getV_setV_self s 15 0#8))

/-! ### `VF` after an instruction, and a cell after a write -/

/-- A flag written before a result whose register is not `VF` stays in `VF` (R130). -/
theorem getV_flag_setV_setFlag (s : State) {x : RegIdx} (hx : 15 ≠ x) (f b : Byte) :
    getV (setV (setFlag s f) x b) 15 = f := by
  rw [getV_setV_ne _ hx, getV_setFlag, if_pos rfl]

/-- An instruction that writes a flag to `VF`, then a result to a destination that is not `VF`, leaves a flag in `VF`. -/
theorem isFlag_of_flagThenResult {i : Instr} {s t : State} {x : RegIdx} {f b : Byte} (hi : destination i = some x)
    (hdest : destination i ≠ some 15) (hf : IsFlag f) (ht : setV (setFlag s f) x b = t) : IsFlag (getV t 15) := by
  rwa [← ht, getV_flag_setV_setFlag s (ne_of_destination hi hdest)]

open Host.Outcome in
/-- Settles O34: the ALU instructions leave the flag they computed, DXYN the one its pixels left. -/
theorem flagIsZeroOrOne : Obligations.FlagIsZeroOrOne := by
  intro i s t hflag hdest h
  cases i with
  | addReg x y => exact isFlag_of_flagThenResult rfl hdest (isFlag_carryFlag _ _) (next.inj h)
  | subReg x y => exact isFlag_of_flagThenResult rfl hdest (isFlag_greaterFlag _ _) (next.inj h)
  | shr x y => exact isFlag_of_flagThenResult rfl hdest (isFlag_lowBitFlag _) (next.inj h)
  | subnReg x y => exact isFlag_of_flagThenResult rfl hdest (isFlag_greaterFlag _ _) (next.inj h)
  | shl x y => exact isFlag_of_flagThenResult rfl hdest (isFlag_highBitFlag _) (next.inj h)
  | drw x y n => exact isFlag_exec_drw h
  | _ => nomatch hflag

/-- Settles O35: the grid's cells have distinct elements below 2048, so a write changes one cell. -/
theorem framebufferLayout : Obligations.FramebufferLayout := fun s _ _ hx hy =>
  ⟨cellIndex_lt hx hy, rfl, fun b _ _ hx' _ => getCell_setCell s hx hy hx' b⟩

end Sys2Proof.Machine

/-! # Memory (spec/20_memory.md R51, R53, R54, R56, R58)

Memory after construction is the image's (`read_ofImage`), and no operation writes it: an instruction's effect leaves it
alone, and so does everything a step or a timer decrement does around that. -/

namespace Sys2Proof.Machine

/-! ### What no operation changes -/

/-- No step writes memory (R56). -/
theorem step_mem_eq {s t : State} (h : step s = .next t) : t.mem = s.mem := by
  obtain ⟨i, -, hexec⟩ := step_eq_next h
  exact (exec_effect hexec).mem_eq.trans (advancePc_mem s)

/-- No operation of the host writes memory (R58). -/
theorem HostOp.run_mem_eq {op : HostOp} {s t : State} (h : op.run s = .next t) : t.mem = s.mem := by
  cases op with
  | step r => exact (step_mem_eq h).trans (supplyRand_mem s r)
  | decDelay => exact Host.Outcome.next.inj h ▸ decDelay_mem s
  | decSound => exact Host.Outcome.next.inj h ▸ decSound_mem s

theorem sameMemory_of_mem_eq {s t : State} (h : t.mem = s.mem) : sameMemory s t := fun a => by rw [h]

/-- Settles O42: the bytes that construction places are the image's, and memory stays the same list after it. -/
theorem memoryIsTheImage : Obligations.MemoryIsTheImage :=
  ⟨fun rom h => ⟨State.ofImage rom, construct_of_le h, read_ofImage rom⟩,
    fun _ _ h => sameMemory_of_mem_eq (step_mem_eq h), fun _ _ _ h => sameMemory_of_mem_eq (HostOp.run_mem_eq h)⟩

/-! ### A word placed at `pc` -/

/-- The table's numbering of bits is that of the word's number: bit 0 is the least significant. -/
theorem tableWord_toNat (w : Word) : tableWord 16 w.toNat = w := by
  rw [tableWord, Nat.mod_eq_of_lt w.isLt, BitVec.ofNat_toNat, BitVec.setWidth_eq]

theorem withFetchWord_toNat (s : State) (w : Word) : s.withFetchWord 16 w.toNat = placeWordAtPc s w := by
  rw [State.withFetchWord, tableWord_toNat]

theorem placeWordAtPc_mem_wf {s : State} (hwf : s.mem.wf = true) (w : Word) : (placeWordAtPc s w).mem.wf = true :=
  Memory.write_wf _ _ _ (Memory.write_wf _ _ _ hwf)

/-- Memory after a word is placed inside it: the low byte after `pc`, the high byte at `pc`, and elsewhere what was there. -/
theorem read_placeWordAtPc {s : State} (hwf : s.mem.wf = true) (hpc : s.pc.toNat ≤ 4094) (w : Word) (a : Nat) :
    (placeWordAtPc s w).mem.read a =
      if a = s.pc.toNat + 1 then lowByte w else if a = s.pc.toNat then highByte w else s.mem.read a := by
  have hhigh : s.pc.toNat < 4096 := by omega
  have hlow : s.pc.toNat + 1 < 4096 := by omega
  simp only [placeWordAtPc_mem, Memory.read_write _ _ _ (Memory.write_wf _ _ _ hwf), Memory.read_write _ _ _ hwf, hhigh,
    hlow, and_true]

theorem nextWord_placeWordAtPc {s : State} (hwf : s.mem.wf = true) (hpc : s.pc.toNat ≤ 4094) (w : Word) :
    (placeWordAtPc s w).nextWord = w := by
  rw [State.nextWord, placeWordAtPc_pc, read_placeWordAtPc hwf hpc, read_placeWordAtPc hwf hpc, if_neg (by omega),
    if_pos rfl, if_pos rfl, wordOfBytes_bytes]

theorem canFetch_of_pc_le {s : State} (h : s.pc.toNat ≤ 4094) : s.canFetch := by
  change s.pc.toNat + 1 < 4096
  omega

/-- Settles O41: the two bytes placed at `pc` are the word the fetch puts together. -/
theorem placedWordIsFetched : Obligations.PlacedWordIsFetched := by
  intro s w hwf hpc
  rw [withFetchWord_toNat]
  have hcan : (placeWordAtPc s w).canFetch := canFetch_of_pc_le hpc
  have hfetch : fetch (placeWordAtPc s w) = .ok (w, advancePc (placeWordAtPc s w)) := by
    rw [fetch_of_canFetch hcan, nextWord_placeWordAtPc hwf hpc]
  refine ⟨placeWordAtPc_mem_wf hwf w, hfetch, fun a hhigh hlow => ?_⟩
  rw [read_placeWordAtPc hwf hpc, if_neg hlow, if_neg hhigh]

/-! ### The machine's reads -/

/-- Two bytes as a number: big-endian (R53). -/
theorem wordOfBytes_toNat (hi lo : Byte) : (wordOfBytes hi lo).toNat = hi.toNat * 256 + lo.toNat :=
  append_toNat hi lo

/-- Everything a 2-byte read can answer (R53, R54). -/
theorem memRead2_eq (s : State) (a : Nat) :
    memRead2 s a = if a ≤ 4094 then .ok (wordOfBytes (s.mem.read a) (s.mem.read (a + 1)))
      else .error .memoryOutOfBounds := by
  simp [memRead2, Nat.lt_succ_iff]

/-- Settles O40: each read answers the bytes inside its bound and the fault above it. -/
theorem memReadIsBigEndianAndBounded : Obligations.MemReadIsBigEndianAndBounded := by
  intro s a
  rw [memRead1_eq, memRead2_eq]
  refine ⟨fun h => if_pos h, fun h => if_neg (by omega), fun h => ?_, fun h => if_neg (by omega)⟩
  exact ⟨_, if_pos h, wordOfBytes_toNat _ _⟩

end Sys2Proof.Machine

/-! # Decoding and encoding are inverse, and the opcode map covers what decodes (spec/30_encoding.md R71 to R84)

`encode` and `decodeWord` undo each other: one way because each layout gives back its fields (`decodeWord_encode`), the other
because every answer of the decoder accounts for the whole word (`decodeWord_sound`). The illegal words are found from both
sides: what the decoder refuses lies in R77's spaces, and no row of the map selects a word of those. -/

namespace Sys2Proof

/-! ### What the decoder reads (R75, R84) -/

theorem decodeWord_jp (w : Word) (h : fieldFirst w = 0x1#4) : decodeWord w = .ok (.jp (fieldNnn w)) := by
  simp only [decodeWord, h]

theorem decodeWord_call (w : Word) (h : fieldFirst w = 0x2#4) : decodeWord w = .ok (.call (fieldNnn w)) := by
  simp only [decodeWord, h]

theorem decodeWord_seImm (w : Word) (h : fieldFirst w = 0x3#4) :
    decodeWord w = .ok (.seImm (fieldX w) (fieldNn w)) := by
  simp only [decodeWord, h]

theorem decodeWord_sneImm (w : Word) (h : fieldFirst w = 0x4#4) :
    decodeWord w = .ok (.sneImm (fieldX w) (fieldNn w)) := by
  simp only [decodeWord, h]

theorem decodeWord_seReg (w : Word) (h : fieldFirst w = 0x5#4) (hn : fieldN w = 0x0#4) :
    decodeWord w = .ok (.seReg (fieldX w) (fieldY w)) := by
  simp only [decodeWord, h, hn, if_pos]

theorem decodeWord_ldImm (w : Word) (h : fieldFirst w = 0x6#4) :
    decodeWord w = .ok (.ldImm (fieldX w) (fieldNn w)) := by
  simp only [decodeWord, h]

theorem decodeWord_addImm (w : Word) (h : fieldFirst w = 0x7#4) :
    decodeWord w = .ok (.addImm (fieldX w) (fieldNn w)) := by
  simp only [decodeWord, h]

theorem decodeWord_ldReg (w : Word) (h : fieldFirst w = 0x8#4) (hn : fieldN w = 0x0#4) :
    decodeWord w = .ok (.ldReg (fieldX w) (fieldY w)) := by
  simp only [decodeWord, decodeGroup8, h, hn]

theorem decodeWord_orReg (w : Word) (h : fieldFirst w = 0x8#4) (hn : fieldN w = 0x1#4) :
    decodeWord w = .ok (.orReg (fieldX w) (fieldY w)) := by
  simp only [decodeWord, decodeGroup8, h, hn]

theorem decodeWord_andReg (w : Word) (h : fieldFirst w = 0x8#4) (hn : fieldN w = 0x2#4) :
    decodeWord w = .ok (.andReg (fieldX w) (fieldY w)) := by
  simp only [decodeWord, decodeGroup8, h, hn]

theorem decodeWord_xorReg (w : Word) (h : fieldFirst w = 0x8#4) (hn : fieldN w = 0x3#4) :
    decodeWord w = .ok (.xorReg (fieldX w) (fieldY w)) := by
  simp only [decodeWord, decodeGroup8, h, hn]

theorem decodeWord_addReg (w : Word) (h : fieldFirst w = 0x8#4) (hn : fieldN w = 0x4#4) :
    decodeWord w = .ok (.addReg (fieldX w) (fieldY w)) := by
  simp only [decodeWord, decodeGroup8, h, hn]

theorem decodeWord_subReg (w : Word) (h : fieldFirst w = 0x8#4) (hn : fieldN w = 0x5#4) :
    decodeWord w = .ok (.subReg (fieldX w) (fieldY w)) := by
  simp only [decodeWord, decodeGroup8, h, hn]

theorem decodeWord_shr (w : Word) (h : fieldFirst w = 0x8#4) (hn : fieldN w = 0x6#4) :
    decodeWord w = .ok (.shr (fieldX w) (fieldY w)) := by
  simp only [decodeWord, decodeGroup8, h, hn]

theorem decodeWord_subnReg (w : Word) (h : fieldFirst w = 0x8#4) (hn : fieldN w = 0x7#4) :
    decodeWord w = .ok (.subnReg (fieldX w) (fieldY w)) := by
  simp only [decodeWord, decodeGroup8, h, hn]

theorem decodeWord_shl (w : Word) (h : fieldFirst w = 0x8#4) (hn : fieldN w = 0xE#4) :
    decodeWord w = .ok (.shl (fieldX w) (fieldY w)) := by
  simp only [decodeWord, decodeGroup8, h, hn]

theorem decodeWord_sneReg (w : Word) (h : fieldFirst w = 0x9#4) (hn : fieldN w = 0x0#4) :
    decodeWord w = .ok (.sneReg (fieldX w) (fieldY w)) := by
  simp only [decodeWord, h, hn, if_pos]

theorem decodeWord_ldI (w : Word) (h : fieldFirst w = 0xA#4) : decodeWord w = .ok (.ldI (fieldNnn w)) := by
  simp only [decodeWord, h]

theorem decodeWord_jpV0 (w : Word) (h : fieldFirst w = 0xB#4) : decodeWord w = .ok (.jpV0 (fieldNnn w)) := by
  simp only [decodeWord, h]

theorem decodeWord_rnd (w : Word) (h : fieldFirst w = 0xC#4) : decodeWord w = .ok (.rnd (fieldX w) (fieldNn w)) := by
  simp only [decodeWord, h]

theorem decodeWord_drw (w : Word) (h : fieldFirst w = 0xD#4) :
    decodeWord w = .ok (.drw (fieldX w) (fieldY w) (fieldN w)) := by
  simp only [decodeWord, h]

theorem decodeWord_illegalGroupE (w : Word) (h : fieldFirst w = 0xE#4) :
    decodeWord w = .ok (.illegalGroupE (fieldNnn w)) := by
  simp only [decodeWord, h]

theorem decodeWord_illegalGroupF (w : Word) (h : fieldFirst w = 0xF#4) :
    decodeWord w = .ok (.illegalGroupF (fieldNnn w)) := by
  simp [decodeWord, h]

/-! ### Decoding an encoded instruction (R72) -/

/-- A decoding rule of a group of format NNN gives the laid out operand back. -/
theorem decodeWord_formatNnn {k : Addr12 → Instr} {f : Nibble}
    (hk : ∀ w, fieldFirst w = f → decodeWord w = .ok (k (fieldNnn w))) (nnn : Addr12) :
    decodeWord (formatNnn f nnn) = .ok (k nnn) := by
  rw [hk _ (fieldFirst_formatNnn f nnn), fieldNnn_formatNnn]

theorem decodeWord_formatXnn {k : RegIdx → Byte → Instr} {f : Nibble}
    (hk : ∀ w, fieldFirst w = f → decodeWord w = .ok (k (fieldX w) (fieldNn w))) (x : RegIdx) (nn : Byte) :
    decodeWord (formatXnn f x nn) = .ok (k x nn) := by
  rw [hk _ (fieldFirst_formatXnn f x nn), fieldX_formatXnn, fieldNn_formatXnn]

theorem decodeWord_formatXy {k : RegIdx → RegIdx → Instr} {f n : Nibble}
    (hk : ∀ w, fieldFirst w = f → fieldN w = n → decodeWord w = .ok (k (fieldX w) (fieldY w))) (x y : RegIdx) :
    decodeWord (formatXyn f x y n) = .ok (k x y) := by
  rw [hk _ (fieldFirst_formatXyn f x y n) (fieldN_formatXyn f x y n), fieldX_formatXyn, fieldY_formatXyn]

theorem decodeWord_formatXyn {k : RegIdx → RegIdx → Nibble → Instr} {f : Nibble}
    (hk : ∀ w, fieldFirst w = f → decodeWord w = .ok (k (fieldX w) (fieldY w) (fieldN w))) (x y : RegIdx) (n : Nibble) :
    decodeWord (formatXyn f x y n) = .ok (k x y n) := by
  rw [hk _ (fieldFirst_formatXyn f x y n), fieldX_formatXyn, fieldY_formatXyn, fieldN_formatXyn]

/-- The word of an instruction decodes to the instruction. -/
theorem decodeWord_encode (i : Instr) : decodeWord (encode i) = .ok i := by
  cases i with
  | cls => rfl
  | ret => rfl
  | jp nnn => exact decodeWord_formatNnn decodeWord_jp nnn
  | call nnn => exact decodeWord_formatNnn decodeWord_call nnn
  | seImm x nn => exact decodeWord_formatXnn decodeWord_seImm x nn
  | sneImm x nn => exact decodeWord_formatXnn decodeWord_sneImm x nn
  | seReg x y => exact decodeWord_formatXy decodeWord_seReg x y
  | ldImm x nn => exact decodeWord_formatXnn decodeWord_ldImm x nn
  | addImm x nn => exact decodeWord_formatXnn decodeWord_addImm x nn
  | ldReg x y => exact decodeWord_formatXy decodeWord_ldReg x y
  | orReg x y => exact decodeWord_formatXy decodeWord_orReg x y
  | andReg x y => exact decodeWord_formatXy decodeWord_andReg x y
  | xorReg x y => exact decodeWord_formatXy decodeWord_xorReg x y
  | addReg x y => exact decodeWord_formatXy decodeWord_addReg x y
  | subReg x y => exact decodeWord_formatXy decodeWord_subReg x y
  | shr x y => exact decodeWord_formatXy decodeWord_shr x y
  | subnReg x y => exact decodeWord_formatXy decodeWord_subnReg x y
  | shl x y => exact decodeWord_formatXy decodeWord_shl x y
  | sneReg x y => exact decodeWord_formatXy decodeWord_sneReg x y
  | ldI nnn => exact decodeWord_formatNnn decodeWord_ldI nnn
  | jpV0 nnn => exact decodeWord_formatNnn decodeWord_jpV0 nnn
  | rnd x nn => exact decodeWord_formatXnn decodeWord_rnd x nn
  | drw x y n => exact decodeWord_formatXyn decodeWord_drw x y n
  | illegalGroupE low => exact decodeWord_formatNnn decodeWord_illegalGroupE low
  | illegalGroupF low => exact decodeWord_formatNnn decodeWord_illegalGroupF low

/-- Settles O3: the two bytes are put together to the encoded word, and that decodes to the instruction. -/
theorem decodeOfEncode : Obligations.DecodeOfEncode := by
  intro i rest
  change decodeBytes (highByte (encode i) :: lowByte (encode i) :: rest) = _
  rw [decodeBytes_of_word, decodeWord_encode]
  rfl

/-! ### Everything the decoder can answer (R74, R77) -/

theorem formatNnn_eq {w : Word} {f : Nibble} (h : fieldFirst w = f) : formatNnn f (fieldNnn w) = w :=
  h ▸ formatNnn_of_fields w

theorem formatXnn_eq {w : Word} {f : Nibble} (h : fieldFirst w = f) : formatXnn f (fieldX w) (fieldNn w) = w :=
  h ▸ formatXnn_of_fields w

theorem formatXyn_eq {w : Word} {f n : Nibble} (h : fieldFirst w = f) (hn : fieldN w = n) :
    formatXyn f (fieldX w) (fieldY w) n = w :=
  h ▸ hn ▸ formatXyn_of_fields w

/-- The six spaces of R77: the words that are no instruction. -/
def InIllegalSpace (w : Word) : Prop :=
  (fieldFirst w = 0x0#4 ∧ w ≠ 0x00E0#16 ∧ w ≠ 0x00EE#16) ∨
  (fieldFirst w = 0x5#4 ∧ fieldN w ≠ 0x0#4) ∨
  (fieldFirst w = 0x8#4 ∧ fieldN w ∈ [0x8#4, 0x9#4, 0xA#4, 0xB#4, 0xC#4, 0xD#4, 0xF#4]) ∨
  (fieldFirst w = 0x9#4 ∧ fieldN w ≠ 0x0#4) ∨
  fieldFirst w = 0xE#4 ∨ fieldFirst w = 0xF#4

/-- What an answer of the decoder says of the word: an instruction accounts for all its bits, a refusal places it in R77. -/
def DecodeSound (w : Word) : Except Reject Instr → Prop
  | .ok i => encode i = w
  | .error _ => InIllegalSpace w

theorem decodeGroup0_sound {w : Word} (h : fieldFirst w = 0x0#4) : DecodeSound w (decodeGroup0 w) := by
  unfold decodeGroup0
  split_ifs with hcls hret
  · exact hcls.symm
  · exact hret.symm
  · exact .inl ⟨h, hcls, hret⟩

theorem decodeGroup8_sound {w : Word} (h : fieldFirst w = 0x8#4) : DecodeSound w (decodeGroup8 w) := by
  unfold decodeGroup8
  split
  case h_10 h0 h1 h2 h3 h4 h5 h6 h7 hE =>
    have hrest : ∀ n : Nibble, n ≠ 0x0#4 → n ≠ 0x1#4 → n ≠ 0x2#4 → n ≠ 0x3#4 → n ≠ 0x4#4 → n ≠ 0x5#4 → n ≠ 0x6#4 →
        n ≠ 0x7#4 → n ≠ 0xE#4 → n ∈ [0x8#4, 0x9#4, 0xA#4, 0xB#4, 0xC#4, 0xD#4, 0xF#4] := by decide
    exact .inr (.inr (.inl ⟨h, hrest _ h0 h1 h2 h3 h4 h5 h6 h7 hE⟩))
  all_goals exact formatXyn_eq h ‹_›

/-- An answer of groups 5 and 9, which `n` being 0 decides (R75). -/
theorem decodeSound_ite {w : Word} {i : Instr} {r : Reject} (hi : fieldN w = 0x0#4 → encode i = w)
    (hr : fieldN w ≠ 0x0#4 → InIllegalSpace w) :
    DecodeSound w (if fieldN w = 0x0#4 then .ok i else .error r) := by
  split_ifs with hn
  · exact hi hn
  · exact hr hn

/-- Every answer of the decoder is sound: the groups one by one. -/
theorem decodeWord_sound (w : Word) : DecodeSound w (decodeWord w) := by
  unfold decodeWord
  split
  next h => exact decodeGroup0_sound h
  next h => exact formatNnn_eq h
  next h => exact formatNnn_eq h
  next h => exact formatXnn_eq h
  next h => exact formatXnn_eq h
  next h => exact decodeSound_ite (formatXyn_eq h) fun hn => .inr (.inl ⟨h, hn⟩)
  next h => exact formatXnn_eq h
  next h => exact formatXnn_eq h
  next h => exact decodeGroup8_sound h
  next h => exact decodeSound_ite (formatXyn_eq h) fun hn => .inr (.inr (.inr (.inl ⟨h, hn⟩)))
  next h => exact formatNnn_eq h
  next h => exact formatNnn_eq h
  next h => exact formatXnn_eq h
  next h => exact formatXyn_eq h rfl
  next h => exact formatNnn_eq h
  next =>
    have h : fieldFirst w = 0xF#4 := by
      simp only [imp_false] at *
      bv_omega
    exact formatNnn_eq h

/-- A word that decodes is the encoding of what it decodes to. -/
theorem encode_of_decodeWord {w : Word} {i : Instr} (h : decodeWord w = .ok i) : encode i = w := by
  have hsound := decodeWord_sound w
  rwa [h] at hsound

/-- A word that the decoder refuses lies in one of the spaces of R77. -/
theorem illegalSpace_of_decodeWord {w : Word} {r : Reject} (h : decodeWord w = .error r) : InIllegalSpace w := by
  have hsound := decodeWord_sound w
  rwa [h] at hsound

/-- Settles O4: what the decoder answers accounts for every bit of the word. -/
theorem encodeOfDecode : Obligations.EncodeOfDecode := fun _ _ => encode_of_decodeWord

/-! ### The rows of the opcode map (R74) -/

/-- Whether two rows fix a common bit differently. -/
def OpcodeRow.conflicts (r r' : OpcodeRow) : Bool := r.value &&& r'.mask != r'.value &&& r.mask

/-- The bits that two rows both fix cannot be as both of them say. -/
theorem OpcodeRow.selects_eq_false_of_conflicts {r r' : OpcodeRow} {w : Word} (hc : r.conflicts r' = true)
    (h : r.selects w = true) : r'.selects w = false := by
  refine Bool.eq_false_iff.2 fun h' => bne_iff_ne.1 hc ?_
  have hr : w &&& r.mask = r.value := beq_iff_eq.1 h
  have hr' : w &&& r'.mask = r'.value := beq_iff_eq.1 h'
  rw [← hr, ← hr']
  ac_rfl

/-- Settles O5: of any two rows of the map, one fixes a bit that the other fixes differently. -/
theorem opcodeRowsDisjoint : Obligations.OpcodeRowsDisjoint := by
  have hconflicts : opcodeMap.Pairwise fun r r' => r.conflicts r' = true := by decide
  exact hconflicts.imp fun hc w ⟨h, h'⟩ =>
    Bool.false_ne_true ((OpcodeRow.selects_eq_false_of_conflicts hc h).symm.trans h')

/-- An instruction's word selects its row: the fixed bits of each row are those the encoder writes. -/
theorem selects_row_encode (i : Instr) : i.row.selects (encode i) = true := by
  cases i with
  | cls => exact Laws.FixedBits.cls
  | ret => exact Laws.FixedBits.ret
  | jp nnn => exact Laws.FixedBits.jp nnn
  | call nnn => exact Laws.FixedBits.call nnn
  | seImm x nn => exact Laws.FixedBits.seImm x nn
  | sneImm x nn => exact Laws.FixedBits.sneImm x nn
  | seReg x y => exact Laws.FixedBits.seReg x y
  | ldImm x nn => exact Laws.FixedBits.ldImm x nn
  | addImm x nn => exact Laws.FixedBits.addImm x nn
  | ldReg x y => exact Laws.FixedBits.ldReg x y
  | orReg x y => exact Laws.FixedBits.orReg x y
  | andReg x y => exact Laws.FixedBits.andReg x y
  | xorReg x y => exact Laws.FixedBits.xorReg x y
  | addReg x y => exact Laws.FixedBits.addReg x y
  | subReg x y => exact Laws.FixedBits.subReg x y
  | shr x y => exact Laws.FixedBits.shr x y
  | subnReg x y => exact Laws.FixedBits.subnReg x y
  | shl x y => exact Laws.FixedBits.shl x y
  | sneReg x y => exact Laws.FixedBits.sneReg x y
  | ldI nnn => exact Laws.FixedBits.ldI nnn
  | jpV0 nnn => exact Laws.FixedBits.jpV0 nnn
  | rnd x nn => exact Laws.FixedBits.rnd x nn
  | drw x y n => exact Laws.FixedBits.drw x y n
  | illegalGroupE low => exact Laws.FixedBits.illegalGroupE low
  | illegalGroupF low => exact Laws.FixedBits.illegalGroupF low

theorem selects_row_of_decodeWord {w : Word} {i : Instr} (h : decodeWord w = .ok i) : i.row.selects w = true :=
  encode_of_decodeWord h ▸ selects_row_encode i

/-! ### Legal words and the spaces of R77 -/

/-- Each of the 23 instructions has its row in the map. -/
theorem row_mem_opcodeMap {i : Instr} (h : i.wellFormed = true) : i.row ∈ opcodeMap := by
  cases i with
  | illegalGroupE low => nomatch h
  | illegalGroupF low => nomatch h
  | _ => simp [Instr.row, opcodeMap]

theorem legalWord_of_decodeWord {w : Word} {i : Instr} (hd : decodeWord w = .ok i) (hwf : i.wellFormed = true) :
    legalWord w = true :=
  List.any_eq_true.2 ⟨i.row, row_mem_opcodeMap hwf, selects_row_of_decodeWord hd⟩

/-- Instructions that are not well-formed are those of groups E and F (R161). -/
theorem fieldFirst_encode_of_not_wellFormed {i : Instr} (h : i.wellFormed = false) :
    fieldFirst (encode i) = 0xE#4 ∨ fieldFirst (encode i) = 0xF#4 := by
  cases i with
  | illegalGroupE low => exact .inl (fieldFirst_formatNnn 0xE low)
  | illegalGroupF low => exact .inr (fieldFirst_formatNnn 0xF low)
  | _ => nomatch h

/-- A word decodes to one of the 23 instructions, or it lies in one of the spaces of R77. -/
theorem decodeWord_wellFormed_or_illegalSpace (w : Word) :
    (∃ i, decodeWord w = .ok i ∧ i.wellFormed = true) ∨ InIllegalSpace w := by
  cases hd : decodeWord w with
  | error r => exact .inr (illegalSpace_of_decodeWord hd)
  | ok i =>
    cases hwf : i.wellFormed with
    | true => exact .inl ⟨i, rfl, hwf⟩
    | false =>
      have hgroup := encode_of_decodeWord hd ▸ fieldFirst_encode_of_not_wellFormed hwf
      exact .inr (.inr (.inr (.inr (.inr hgroup))))

/-- The row that fixes `first` and `n`. -/
def fieldRow (first n : Nibble) : OpcodeRow := ⟨0xF00F, first.setWidth 16 <<< 12 ||| n.setWidth 16⟩

theorem selects_fieldRow (w : Word) : (fieldRow (fieldFirst w) (fieldN w)).selects w = true :=
  Laws.FixedBits.selects_first_n rfl rfl rfl

/-- Rows that conflict with the word's `first` and `n` do not select it. -/
theorem any_selects_eq_false {w : Word} {first : Nibble} (h : fieldFirst w = first) {rows : List OpcodeRow}
    (hc : ∀ r ∈ rows, (fieldRow first (fieldN w)).conflicts r = true) : rows.any (·.selects w) = false := by
  subst h
  exact List.any_eq_false.2 fun r hr =>
    Bool.not_eq_true _ ▸ OpcodeRow.selects_eq_false_of_conflicts (hc r hr) (selects_fieldRow w)

/-- A row that fixes all sixteen bits selects one word. -/
theorem selects_allBits (w v : Word) : (OpcodeRow.mk 0xFFFF#16 v).selects w = (w == v) := by
  rw [OpcodeRow.selects, show (0xFFFF#16 : Word) = BitVec.allOnes 16 from rfl, BitVec.and_allOnes]

/-- The map's first two rows stand for one word each. -/
theorem legalWord_eq (w : Word) : legalWord w =
    (w == 0x00E0#16 || (w == 0x00EE#16 || (opcodeMap.drop 2).any (·.selects w))) := by
  rw [← selects_allBits, ← selects_allBits]
  rfl

/-- No row of the map selects a word of one of the spaces of R77: every row, but for 00E0 and 00EE in group 0, conflicts
with the word's `first` and `n`. -/
theorem legalWord_eq_false_of_illegalSpace {w : Word} (h : InIllegalSpace w) : legalWord w = false := by
  obtain ⟨h, hcls, hret⟩ | ⟨h, hn⟩ | ⟨h, hn⟩ | ⟨h, hn⟩ | h | h := h
  · have hconf : ∀ n, ∀ r ∈ opcodeMap.drop 2, (fieldRow 0x0#4 n).conflicts r = true := by decide
    have hrest : (opcodeMap.drop 2).any (·.selects w) = false := any_selects_eq_false h (hconf _)
    simp [legalWord_eq, hcls, hret, hrest]
  · have hconf : ∀ n ≠ 0x0#4, ∀ r ∈ opcodeMap, (fieldRow 0x5#4 n).conflicts r = true := by decide
    exact any_selects_eq_false h (hconf _ hn)
  · have hconf : ∀ n ∈ [0x8#4, 0x9#4, 0xA#4, 0xB#4, 0xC#4, 0xD#4, 0xF#4], ∀ r ∈ opcodeMap,
        (fieldRow 0x8#4 n).conflicts r = true := by decide
    exact any_selects_eq_false h (hconf _ hn)
  · have hconf : ∀ n ≠ 0x0#4, ∀ r ∈ opcodeMap, (fieldRow 0x9#4 n).conflicts r = true := by decide
    exact any_selects_eq_false h (hconf _ hn)
  · have hconf : ∀ n, ∀ r ∈ opcodeMap, (fieldRow 0xE#4 n).conflicts r = true := by decide
    exact any_selects_eq_false h (hconf _)
  · have hconf : ∀ n, ∀ r ∈ opcodeMap, (fieldRow 0xF#4 n).conflicts r = true := by decide
    exact any_selects_eq_false h (hconf _)

/-- Settles O6: a legal word lies in none of R77's spaces, so it decodes; and what decodes is encoded with its row's bits. -/
theorem decodesExactlyLegalWords : Obligations.DecodesExactlyLegalWords := by
  refine fun w => ⟨⟨fun hlegal => ?_, fun ⟨i, hd, hwf⟩ => legalWord_of_decodeWord hd hwf⟩,
    fun i => selects_row_of_decodeWord⟩
  refine (decodeWord_wellFormed_or_illegalSpace w).resolve_right fun hspace => ?_
  simp [legalWord_eq_false_of_illegalSpace hspace] at hlegal

/-- Settles O7: a word in none of the spaces decodes to one of the 23 instructions, so it matches that one's row. -/
theorem illegalWordSpaces : Obligations.IllegalWordSpaces := by
  refine fun w => ⟨fun hillegal => ?_, legalWord_eq_false_of_illegalSpace⟩
  refine (decodeWord_wellFormed_or_illegalSpace w).resolve_left fun ⟨i, hd, hwf⟩ => ?_
  simp [legalWord_of_decodeWord hd hwf] at hillegal

/-! ### Words that agree outside bits 7-4 (R76) -/

/-- A mask that keeps all bits of a field keeps the field. -/
theorem extractLsb'_and_of_allOnes {start len : Nat} {m : Word} (hm : m.extractLsb' start len = BitVec.allOnes len)
    (w : Word) : (w &&& m).extractLsb' start len = w.extractLsb' start len := by
  rw [BitVec.extractLsb'_and, hm, BitVec.and_allOnes]

/-- Words that agree on a mask agree on the fields inside it. -/
theorem extractLsb'_eq_of_and_eq {w w' m : Word} (h : w &&& m = w' &&& m) (start len : Nat)
    (hm : m.extractLsb' start len = BitVec.allOnes len) : w.extractLsb' start len = w'.extractLsb' start len := by
  rw [← extractLsb'_and_of_allOnes hm w, h, extractLsb'_and_of_allOnes hm]

/-- Settles O8: both words decode to the shift with the same `x`, and the shift's meaning does not take its `y`. -/
theorem shiftIgnoresY : Obligations.ShiftIgnoresY := by
  intro w w' s hfirst hn hagree
  have hfirst' : fieldFirst w' = 0x8#4 := (extractLsb'_eq_of_and_eq hagree 12 4 (by decide)).symm.trans hfirst
  have hn' : fieldN w' = fieldN w := (extractLsb'_eq_of_and_eq hagree 0 4 (by decide)).symm
  have hx' : fieldX w' = fieldX w :=
    Fin.ext (congrArg BitVec.toNat (extractLsb'_eq_of_and_eq hagree 8 4 (by decide)).symm)
  obtain hn | hn := hn
  · refine ⟨_, _, _, decodeWord_shr w hfirst hn, decodeWord_shr w' hfirst' (hn'.trans hn), rfl, ?_⟩
    rw [hx']
    rfl
  · refine ⟨_, _, _, decodeWord_shl w hfirst hn, decodeWord_shl w' hfirst' (hn'.trans hn), rfl, ?_⟩
    rw [hx']
    rfl

/-! ### Known words, and the fields of a word (R71) -/

/-- Settles O1, by running the decoder on the sixteen words. -/
theorem knownWordsDecode : Obligations.KnownWordsDecode := by
  unfold Obligations.KnownWordsDecode
  decide

/-- Settles O2: each field is a quotient and remainder of the word's number. -/
theorem fieldsRecomposeWord : Obligations.FieldsRecomposeWord := by
  intro w
  rw [fieldFirst_toNat, fieldX_val, fieldY_val, fieldN_toNat, fieldNn_toNat, fieldNnn_toNat]
  omega

end Sys2Proof

/-! # The step cycle (spec/40_step_cycle.md R91 to R98)

A step has three cases: the pair at `pc` is outside memory (`step_of_not_canFetch`), it decodes to an instruction, which
runs (`step_of_executes`), or it decodes to none. The rest is said of `exec` first: it refuses nothing, it leaves `pc`
where R94 says, and the supplied random byte passes through every instruction but CXNN. -/

namespace Sys2Proof.Machine

/-! ### Fetch, decode, execute (R91 to R93) -/

theorem step_of_not_canFetch {s : State} (h : ¬ s.canFetch) : step s = .fault .memoryOutOfBounds := by
  simp only [step, fetch_of_not_canFetch h, raise]

theorem step_of_executes {s : State} {i : Instr} (h : s.executes i) : step s = exec i (advancePc s) := by
  obtain ⟨hfetch, hdecode⟩ := h
  rw [step_of_canFetch hfetch, hdecode]

/-- Two bytes that decode to an instruction are the word that decodes to it, high byte first (R53). -/
theorem decodeWord_of_decodeBytes {hi lo : Byte} {i : Instr} {rest : List Byte}
    (h : decodeBytes [hi, lo] = .ok (i, rest)) : decodeWord (wordOfBytes hi lo) = .ok i := by
  simp only [decodeBytes] at h
  cases hd : decodeWord (wordOfBytes hi lo) with
  | error r => simp [hd] at h
  | ok j =>
    rw [hd] at h
    exact congrArg Except.ok (congrArg Prod.fst (Except.ok.inj h))

/-- Settles O10: a `pc` above 4094 leaves the second byte of the pair outside memory. -/
theorem fetchOutsideMemoryFaults : Obligations.FetchOutsideMemoryFaults := fun s hpc =>
  step_of_not_canFetch fun (hfetch : s.pc.toNat + 1 < 4096) => by omega

/-- Settles O9: the two bytes at `pc` are the fetched word, so the state is about to execute `i`. -/
theorem stepRunsDecodedInstruction : Obligations.StepRunsDecodedInstruction := fun _ _ hpc hdecode =>
  step_of_executes ⟨canFetch_of_pc_le hpc, decodeWord_of_decodeBytes hdecode⟩

/-! ### No refusal (R96) -/

theorem exec_ne_refused (i : Instr) (s : State) (q : Refusal) : exec i s ≠ .refused q := by
  cases i with
  | ret =>
    change execRet s ≠ _
    unfold execRet
    split <;> exact nofun
  | drw x y n => exact finish_ne_refused
  | _ => exact nofun

theorem step_ne_refused (s : State) (q : Refusal) : step s ≠ .refused q := by
  by_cases hfetch : s.canFetch
  · rw [step_of_canFetch hfetch]
    split
    · exact nofun
    · exact exec_ne_refused _ _ q
  · rw [step_of_not_canFetch hfetch]
    exact nofun

/-- Settles O14: of the three outcomes, no step has the third. -/
theorem stepEndsInStateOrFault : Obligations.StepEndsInStateOrFault := by
  intro s
  cases h : step s with
  | next t => exact .inl ⟨t, rfl⟩
  | fault f => exact .inr ⟨f, rfl⟩
  | refused q => exact absurd h (step_ne_refused s q)

/-! ### Where `pc` goes (R94) -/

/-- A skip after the fetch leaves `pc` 4 or 2 past the instruction (R105 to R108). -/
theorem skipIf_advancePc_pc (c : Bool) (s : State) :
    (skipIf c (advancePc s)).pc = if c then s.pc + 4#16 else s.pc + 2#16 := by
  rw [skipIf_pc, advancePc_pc, BitVec.add_assoc]
  rfl

open Host.Outcome in
/-- An instruction that completes after the fetch leaves `pc` where R94 says. -/
theorem exec_advancePc_pc {i : Instr} {s t : State} (h : exec i (advancePc s) = .next t) : t.pc = pcAfter s i := by
  cases i with
  | ret =>
    obtain ⟨a, rest, hstack, rfl⟩ := exec_ret_eq_next.1 h
    rw [pcAfter, ← advancePc_stack, hstack]
    rfl
  | seImm _ _ | sneImm _ _ | seReg _ _ | sneReg _ _ =>
    rw [← next.inj h, skipIf_advancePc_pc]
    simp [pcAfter]
  | drw x y n => exact (exec_drw_frame h).pc
  | illegalGroupE _ | illegalGroupF _ => nomatch h
  | _ => exact next.inj h ▸ rfl

/-- Settles O15: the step is the instruction after the fetch. -/
theorem pcAfterEachInstruction : Obligations.PcAfterEachInstruction := fun _ _ _ hi h =>
  exec_advancePc_pc (step_of_executes hi ▸ h)

/-! ### The random byte (R95) -/

/-- The outcome with `r` as the supplied byte of the next state, if there is one. -/
def supplyRandAfter (r : Byte) : Host.Outcome State Fault Refusal → Host.Outcome State Fault Refusal
  | .next t => .next (supplyRand r t)
  | .fault f => .fault f
  | .refused q => .refused q

theorem skipIf_supplyRand (r : Byte) (c : Bool) (s : State) :
    skipIf c (supplyRand r s) = supplyRand r (skipIf c s) := by
  cases c <;> rfl

theorem plotPixel_supplyRand (r : Byte) (x y : Nat) (s : State) :
    plotPixel x y (supplyRand r s) = supplyRand r (plotPixel x y s) := by
  have hcell : getCell (supplyRand r s) x y = getCell s x y := rfl
  unfold plotPixel
  rw [hcell]
  cases getCell s x y <;> rfl

theorem plotRow_supplyRand (r b : Byte) (x0 y left col : Nat) (s : State) :
    plotRow b x0 y left col (supplyRand r s) = supplyRand r (plotRow b x0 y left col s) := by
  induction left generalizing col s with
  | zero => rfl
  | succ left ih =>
    unfold plotRow
    rw [plotPixel_supplyRand, ← apply_ite (supplyRand r), ih, ← apply_ite (supplyRand r)]

theorem drawRows_supplyRand (r : Byte) (x0 y0 left row : Nat) (s : State) :
    drawRows x0 y0 left row (supplyRand r s) = (drawRows x0 y0 left row s).map (supplyRand r) := by
  induction left generalizing row s with
  | zero => rfl
  | succ left ih =>
    rw [drawRows_succ, drawRows_succ, plotRow_supplyRand, ih, apply_ite (Except.map (supplyRand r)),
      apply_ite (Except.map (supplyRand r))]
    rfl

theorem finish_map_supplyRand (r : Byte) (e : Except Fault State) :
    finish (e.map (supplyRand r)) = supplyRandAfter r (finish e) := by
  cases e <;> rfl

/-- An instruction other than CXNN neither reads nor writes the supplied byte. -/
theorem exec_supplyRand (r : Byte) {i : Instr} (hi : ∀ x nn, i ≠ .rnd x nn) (s : State) :
    exec i (supplyRand r s) = supplyRandAfter r (exec i s) := by
  cases i with
  | ret =>
    change execRet (supplyRand r s) = supplyRandAfter r (execRet s)
    unfold execRet pop
    rw [supplyRand_stack]
    cases s.stack <;> rfl
  | seImm _ _ | sneImm _ _ | seReg _ _ | sneReg _ _ => exact congrArg Host.Outcome.next (skipIf_supplyRand r _ s)
  | rnd x nn => exact absurd rfl (hi x nn)
  | drw x y n =>
    change finish (drawRows (spriteColumn s x) (spriteRow s y) (rowCount n) 0 (supplyRand r (setFlag s 0#8))) = _
    rw [drawRows_supplyRand, finish_map_supplyRand]
    rfl
  | _ => rfl

/-- A step that does not execute CXNN ends the same way whatever byte is supplied. -/
theorem stepWith_eq_supplyRandAfter (r : Byte) {s : State} (hs : ∀ x nn, ¬ s.executes (.rnd x nn)) :
    stepWith r s = supplyRandAfter r (step s) := by
  by_cases hfetch : s.canFetch
  · have hfetch' : (supplyRand r s).canFetch := hfetch
    have hword : (supplyRand r s).nextWord = s.nextWord := rfl
    rw [stepWith, step_of_canFetch hfetch', step_of_canFetch hfetch, hword]
    cases hd : decodeWord s.nextWord with
    | error _ => rfl
    | ok i => exact exec_supplyRand r (fun x nn hi => hs x nn ⟨hfetch, hi ▸ hd⟩) (advancePc s)
  · have hfetch' : ¬ (supplyRand r s).canFetch := hfetch
    rw [stepWith, step_of_not_canFetch hfetch', step_of_not_canFetch hfetch]
    rfl

/-- Settles O50: the supplied byte passes through the step, to the next state or to the same fault. -/
theorem onlyRandomReadsRand : Obligations.OnlyRandomReadsRand := fun _ r hs =>
  ⟨fun _ h => by rw [stepWith_eq_supplyRandAfter r hs, h, supplyRandAfter],
    fun _ h => by rw [stepWith_eq_supplyRandAfter r hs, h, supplyRandAfter]⟩

/-! ### Fixed points (R98) -/

/-- 1NNN at address NNN changes nothing. -/
theorem step_jp_self {s : State} {nnn : Addr12} (h : s.executes (.jp nnn)) (hpc : nnn.toNat = s.pc.toNat) :
    step s = .next s := by
  have htarget : addrOperand nnn = s.pc := BitVec.eq_of_toNat_eq (addrOperand_toNat nnn ▸ hpc)
  rw [step_of_executes h]
  change Host.Outcome.next (setPc s (addrOperand nnn)) = _
  rw [htarget]
  rfl

/-- BNNN at address NNN + V0 changes nothing. -/
theorem step_jpV0_self {s : State} {nnn : Addr12} (h : s.executes (.jpV0 nnn))
    (hpc : nnn.toNat + (getV s 0).toNat = s.pc.toNat) : step s = .next s := by
  have htarget : indexedTarget s nnn = s.pc := BitVec.eq_of_toNat_eq (indexedTarget_toNat s nnn ▸ hpc)
  rw [step_of_executes h]
  change Host.Outcome.next (setPc s (indexedTarget s nnn)) = _
  rw [htarget]
  rfl

/-- Only a return, a jump or a call can leave `pc` at its own address: every other instruction moves it on by 2 or 4. -/
theorem transfer_of_pcAfter_eq {s : State} {i : Instr} (h : pcAfter s i = s.pc) :
    i = .ret ∨ (∃ nnn, i = .call nnn) ∨ (∃ nnn, i = .jp nnn) ∨ ∃ nnn, i = .jpV0 nnn := by
  have hnext : s.pc + 2#16 ≠ s.pc := by simp
  have hskip : s.pc + 4#16 ≠ s.pc := by simp
  cases i with
  | ret => exact .inl rfl
  | call nnn => exact .inr (.inl ⟨nnn, rfl⟩)
  | jp nnn => exact .inr (.inr (.inl ⟨nnn, rfl⟩))
  | jpV0 nnn => exact .inr (.inr (.inr ⟨nnn, rfl⟩))
  | seImm _ _ | seReg _ _ => exact absurd h (iteInduction (motive := (· ≠ s.pc)) (fun _ => hskip) fun _ => hnext)
  | sneImm _ _ | sneReg _ _ => exact absurd h (iteInduction (motive := (· ≠ s.pc)) (fun _ => hnext) fun _ => hskip)
  | _ => exact absurd h hnext

/-- A return that completes leaves a shorter stack (R100). -/
theorem exec_ret_advancePc_ne (s : State) : exec .ret (advancePc s) ≠ .next s := by
  intro h
  obtain ⟨a, rest, hstack, hs⟩ := exec_ret_eq_next.1 h
  have hrest : s.stack = rest := congrArg State.stack hs
  exact List.cons_ne_self a rest (hstack.symm.trans hrest)

/-- A call leaves a longer stack (R102). -/
theorem exec_call_advancePc_ne (nnn : Addr12) (s : State) : exec (.call nnn) (advancePc s) ≠ .next s := fun h =>
  List.cons_ne_self _ _ (congrArg State.stack (Host.Outcome.next.inj h))

/-- A state that a step maps to itself is at a jump to its own address. -/
theorem self_jump_of_step_eq_self {s : State} (h : step s = .next s) :
    ∃ nnn : Addr12, (s.executes (.jp nnn) ∧ nnn.toNat = s.pc.toNat) ∨
      (s.executes (.jpV0 nnn) ∧ nnn.toNat + (getV s 0).toNat = s.pc.toNat) := by
  obtain ⟨i, hi, hexec⟩ := step_eq_next h
  have hpc : pcAfter s i = s.pc := (exec_advancePc_pc hexec).symm
  obtain rfl | ⟨nnn, rfl⟩ | ⟨nnn, rfl⟩ | ⟨nnn, rfl⟩ := transfer_of_pcAfter_eq hpc
  · exact absurd hexec (exec_ret_advancePc_ne s)
  · exact absurd hexec (exec_call_advancePc_ne nnn s)
  · exact ⟨nnn, .inl ⟨hi, (addrOperand_toNat nnn).symm.trans (congrArg BitVec.toNat hpc)⟩⟩
  · exact ⟨nnn, .inr ⟨hi, (indexedTarget_toNat s nnn).symm.trans (congrArg BitVec.toNat hpc)⟩⟩

/-- Settles O51: the supplied byte moves no jump, and a fixed point keeps both `pc` and the stack. -/
theorem fixedPointsAreSelfJumps : Obligations.FixedPointsAreSelfJumps :=
  ⟨fun s _ h hpc r => step_jp_self (s := supplyRand r s) h hpc,
    fun s _ h hpc r => step_jpV0_self (s := supplyRand r s) h hpc, fun _ => self_jump_of_step_eq_self⟩

end Sys2Proof.Machine

/-! # Control transfer (spec/41_control_flow.md R100 to R108)

Each instruction here leaves a state in which only `pc`, or `pc` and the stack, have changed: `setPc_withStack_frame` says
so once, and the jumps and the skips are the case in which the stack stays as it was. -/

namespace Sys2Proof.Machine

/-! ### Frames -/

/-- Writing `pc` and the stack changes nothing else. -/
theorem setPc_withStack_frame (s : State) (stack : List Word) (a : Word) :
    sameAllButPcAndStack s (setPc { s with stack := stack } a) :=
  ⟨fun _ _ => rfl, rfl, rfl, fun _ => rfl, rfl, rfl⟩

theorem setPc_frame (s : State) (a : Word) : sameAllButPc s (setPc s a) :=
  ⟨setPc_withStack_frame s s.stack a, rfl⟩

/-- A skip writes `pc` when it is taken, and nothing when it is not. -/
theorem skipIf_frame (c : Bool) (s : State) : sameAllButPc s (skipIf c s) := by
  cases c with
  | false => exact setPc_frame s s.pc
  | true => exact setPc_frame s (s.pc + 2#16)

/-! ### Return, jump and call (R100 to R104) -/

theorem exec_ret_of_stack_nil {s : State} (h : s.stack = []) : exec .ret s = .fault .stackUnderflow := by
  change execRet s = _
  rw [execRet, pop_eq_none.2 h, raise]

theorem exec_ret_of_stack_cons {s : State} {a : Word} {rest : List Word} (h : s.stack = a :: rest) :
    exec .ret s = .next (setPc { s with stack := rest } a) :=
  exec_ret_eq_next.2 ⟨a, rest, h, rfl⟩

theorem exec_call (nnn : Addr12) (s : State) :
    exec (.call nnn) s = .next (setPc (push s s.pc) (addrOperand nnn)) := rfl

/-- Settles O16: the two cases of the stack. -/
theorem returnPopsStack : Obligations.ReturnPopsStack :=
  ⟨rfl, fun _ => exec_ret_of_stack_nil, fun s a rest h =>
    ⟨_, exec_ret_of_stack_cons h, rfl, rfl, setPc_withStack_frame s rest a⟩⟩

/-- Settles O17: the jump writes `pc` alone, and the target is `nnn` as a number. -/
theorem jumpSetsPc : Obligations.JumpSetsPc :=
  ⟨decodeWord_jp, fun nnn s => ⟨_, rfl, addrOperand_toNat nnn, setPc_frame s _⟩⟩

/-- Settles O18: the call pushes and writes `pc`, with nothing to check at any depth. -/
theorem callPushesReturnAddress : Obligations.CallPushesReturnAddress :=
  ⟨decodeWord_call, fun nnn s =>
    ⟨_, exec_call nnn s, addrOperand_toNat nnn, rfl, setPc_withStack_frame s (s.pc :: s.stack) _⟩⟩

/-- Settles O19: the sum is formed in 16 bits, where it does not wrap. -/
theorem indexedJumpAddsV0 : Obligations.IndexedJumpAddsV0 :=
  ⟨decodeWord_jpV0, fun nnn s => ⟨_, rfl, indexedTarget_toNat s nnn, setPc_frame s _⟩⟩

/-! ### A call and its return (R103) -/

/-- The address after an instruction inside memory does not wrap. -/
theorem advancePc_pc_toNat {s : State} (h : s.canFetch) : (advancePc s).pc.toNat = s.pc.toNat + 2 := by
  have hpc : s.pc.toNat + 1 < 4096 := h
  rw [advancePc_pc]
  bv_omega

/-- A step at a return pops the stack into `pc`, which overwrites the advance of the fetch. -/
theorem step_ret_of_stack_cons {s : State} {a : Word} {rest : List Word} (hs : s.executes .ret)
    (h : s.stack = a :: rest) : step s = .next (setPc { s with stack := rest } a) := by
  have hstack : (advancePc s).stack = a :: rest := h
  rw [step_of_executes hs, exec_ret_of_stack_cons hstack]
  rfl

/-- Settles O22: the call leaves the address after it on top of the stack it found, and the return takes it off again. -/
theorem callReturnLaw : Obligations.CallReturnLaw := by
  intro s nnn hcall
  obtain ⟨t, hstep, htarget, hpushed, -⟩ := callPushesReturnAddress.2 nnn (advancePc s)
  refine ⟨t, (step_of_executes hcall).trans hstep, htarget, fun u hu hret => ?_⟩
  have hstack : u.stack = (advancePc s).pc :: s.stack := hu.trans hpushed
  have hfetch : s.canFetch := hcall.1
  exact ⟨_, step_ret_of_stack_cons hret hstack, advancePc_pc_toNat hfetch, rfl, setPc_withStack_frame u s.stack _⟩

/-! ### Skips (R105 to R108) -/

/-- In group 5 only the words with `n = 0` have a handler (R77, D4). -/
theorem decodeWord_noHandlerGroup5 (w : Word) (h : fieldFirst w = 0x5#4) (hn : fieldN w ≠ 0x0#4) :
    decodeWord w = .error .noHandlerGroup5 := by
  simp only [decodeWord, h, hn, if_false]

/-- In group 9 only the words with `n = 0` have a handler (R77, D4). -/
theorem decodeWord_noHandlerGroup9 (w : Word) (h : fieldFirst w = 0x9#4) (hn : fieldN w ≠ 0x0#4) :
    decodeWord w = .error .noHandlerGroup9 := by
  simp only [decodeWord, h, hn, if_false]

/-- A skip on equality. -/
theorem skipIf_beq_pc (a b : Byte) (s : State) :
    (skipIf (a == b) s).pc = if a = b then s.pc + 2#16 else s.pc := by
  simp only [skipIf_pc, beq_iff_eq]

/-- A skip on inequality goes on exactly where the skip on equality is taken. -/
theorem skipIf_bne_pc (a b : Byte) (s : State) :
    (skipIf (a != b) s).pc = if a = b then s.pc else s.pc + 2#16 := by
  simp only [skipIf_pc, bne_iff_ne, ite_not]

/-- Settles O20: the two skips test one condition and its opposite. -/
theorem skipOnImmediate : Obligations.SkipOnImmediate :=
  ⟨decodeWord_seImm, decodeWord_sneImm,
    fun x nn s => ⟨_, rfl, skipIf_beq_pc (getV s x) nn s, skipIf_frame _ s⟩,
    fun x nn s => ⟨_, rfl, skipIf_bne_pc (getV s x) nn s, skipIf_frame _ s⟩⟩

/-- Settles O21: the decoder tests `n`, and the two skips test one condition and its opposite. -/
theorem skipOnRegister : Obligations.SkipOnRegister :=
  ⟨fun w h => ⟨decodeWord_seReg w h, decodeWord_noHandlerGroup5 w h⟩,
    fun w h => ⟨decodeWord_sneReg w h, decodeWord_noHandlerGroup9 w h⟩,
    fun x y s => ⟨_, rfl, skipIf_beq_pc (getV s x) (getV s y) s, skipIf_frame _ s⟩,
    fun x y s => ⟨_, rfl, skipIf_bne_pc (getV s x) (getV s y) s, skipIf_frame _ s⟩⟩

end Sys2Proof.Machine

/-! # Immediate loads (spec/42_load_immediate.md R120 to R123)

Each instruction here completes from every state, with one write: 6XNN, 7XNN and CXNN write `Vx`, ANNN writes `I`. What
else a write of a register leaves alone is said once, in `setV_frame`. -/

namespace Sys2Proof.Machine

/-! ### Frames -/

/-- Writing a register changes no other register and nothing outside the register file. -/
theorem setV_frame (s : State) (x : RegIdx) (b : Byte) :
    sameRegistersBut [x] s (setV s x b) ∧ sameAllButRegisters s (setV s x b) :=
  ⟨fun _ hk => getV_setV_ne s (List.ne_of_not_mem_cons hk) b, rfl, rfl, rfl, rfl, fun _ => rfl, rfl, rfl⟩

/-- Writing `I` changes nothing else. -/
theorem setI_frame (s : State) (a : Word) :
    sameRegistersBut [] s (setI s a) ∧ (setI s a).pc = s.pc ∧ (setI s a).stack = s.stack ∧ (setI s a).fb = s.fb ∧
      sameMemory s (setI s a) ∧ sameTimers s (setI s a) :=
  ⟨fun k _ => getV_setI s a k, rfl, rfl, rfl, fun _ => rfl, rfl, rfl⟩

/-- The byte that is supplied before a register is written, and the one drawn after it, enter no frame: `rand8` and `draws`
are the model's own fields (R20, log entry 1). -/
theorem nextRand_setV_supplyRand_frame (r : Byte) (s : State) (x : RegIdx) (b : Byte) :
    sameRegistersBut [x] s (nextRand (setV (supplyRand r s) x b)) ∧
      sameAllButRegisters s (nextRand (setV (supplyRand r s) x b)) :=
  setV_frame (supplyRand r s) x b

/-! ### The four instructions -/

theorem exec_ldImm (x : RegIdx) (nn : Byte) (s : State) : exec (.ldImm x nn) s = .next (setV s x nn) := rfl

theorem exec_addImm (x : RegIdx) (nn : Byte) (s : State) :
    exec (.addImm x nn) s = .next (setV s x (getV s x + nn)) := rfl

theorem exec_ldI (nnn : Addr12) (s : State) : exec (.ldI nnn) s = .next (setI s (addrOperand nnn)) := rfl

/-- CXNN takes the byte that was supplied for its step (R95, R123). -/
theorem exec_rnd_supplyRand (x : RegIdx) (nn r : Byte) (s : State) :
    exec (.rnd x nn) (supplyRand r s) = .next (nextRand (setV (supplyRand r s) x (r &&& nn))) := rfl

/-- Settles O23: the load writes `Vx` alone, whichever register it is. -/
theorem loadImmediateResult : Obligations.LoadImmediateResult :=
  ⟨decodeWord_ldImm, fun x nn s => ⟨_, exec_ldImm x nn s, getV_setV_self s x nn, setV_frame s x nn⟩⟩

/-- Settles O24: the sum of two bytes is reduced to 8 bits, and its register is the only write. -/
theorem addImmediateResult : Obligations.AddImmediateResult := by
  refine ⟨decodeWord_addImm, fun x nn s => ⟨_, exec_addImm x nn s, ?_, setV_frame s x _⟩⟩
  rw [getV_setV_self, BitVec.toNat_add]

/-- Settles O25: the load writes `I` alone, and nothing is checked of `nnn`. -/
theorem loadIndexResult : Obligations.LoadIndexResult :=
  ⟨decodeWord_ldI, fun nnn s => ⟨_, exec_ldI nnn s, addrOperand_toNat nnn, setI_frame s _⟩⟩

/-- Settles O26: the byte written to `Vx` is made from the supplied one, and using it up touches no other field of R20. -/
theorem randomAndMask : Obligations.RandomAndMask := by
  refine ⟨decodeWord_rnd, fun x nn r s =>
    ⟨_, exec_rnd_supplyRand x nn r s, ?_, nextRand_setV_supplyRand_frame r s x _⟩⟩
  rw [getV_nextRand, getV_setV_self]

end Sys2Proof.Machine

/-! # The register-to-register group (spec/43_alu_8xy.md R130 to R141)

8XY0 to 8XY3 write `Vx` alone. Each of the other five writes a flag to `VF`, then a result to `Vx` (R130): its equation
below gives both values from the registers of the old state, and an operand that is `VF` reads the new flag where the
result is computed after the flag write. -/

namespace Sys2Proof.Machine

/-! ### Flag values (R135 to R139) -/

theorem flagOf_decide (p : Prop) [Decidable p] : flagOf (decide p) = oneIf p := by
  simp only [flagOf, oneIf, decide_eq_true_eq]

/-- Nine bits hold the sum of two bytes (R135). -/
theorem wideSum_toNat (a b : Byte) : (wideSum a b).toNat = a.toNat + b.toNat := by
  simp only [wideSum, BitVec.toNat_add, BitVec.toNat_setWidth]
  omega

theorem wideSum_setWidth (a b : Byte) : (wideSum a b).setWidth 8 = a + b := by
  apply BitVec.eq_of_toNat_eq
  rw [BitVec.toNat_setWidth, wideSum_toNat, BitVec.toNat_add]

theorem carryFlag_eq_oneIf (a b : Byte) : carryFlag a b = oneIf (255 < a.toNat + b.toNat) := by
  rw [carryFlag, flagOf_decide, wideSum_toNat]

theorem greaterFlag_eq_oneIf (a b : Byte) : greaterFlag a b = oneIf (b.toNat < a.toNat) := flagOf_decide _

theorem lowBitFlag_toNat (a : Byte) : (lowBitFlag a).toNat = a.toNat % 2 := Nat.and_one_is_mod _

/-- By default the flag of 8XYE is the bit shifted out, as 0 or 1 (R139, D6). -/
theorem highBitFlag_false_toNat (a : Byte) : (highBitFlag false a).toNat = a.toNat / 128 := by
  have hbit : (highBitFlag false a).toNat = (a >>> 7).toNat % 2 := Nat.and_one_is_mod _
  rw [hbit, BitVec.toNat_ushiftRight, Nat.shiftRight_eq_div_pow]
  omega

theorem highBitFlag_false (a : Byte) : highBitFlag false a = a >>> 7 := by
  apply BitVec.eq_of_toNat_eq
  rw [highBitFlag_false_toNat, BitVec.toNat_ushiftRight, Nat.shiftRight_eq_div_pow]

/-- The raw flag of 8XYE is bit 7 in its own place (R139). -/
theorem highBitFlag_true_toNat (a : Byte) : (highBitFlag true a).toNat = a.toNat / 128 * 128 := by
  have hbit : (highBitFlag true a).toNat = (a.toNat.testBit 7).toNat * 2 ^ 7 := Nat.and_two_pow a.toNat 7
  rw [hbit, Nat.toNat_testBit]
  omega

/-! ### Shifts by one (R137, R139) -/

theorem ushiftRight_one_toNat (a : Byte) : (a >>> 1).toNat = a.toNat / 2 := by
  rw [BitVec.toNat_ushiftRight, Nat.shiftRight_eq_div_pow, pow_one]

theorem shiftLeft_one_eq_two_mul (a : Byte) : a <<< 1 = 2#8 * a := by
  rw [BitVec.two_mul, BitVec.shiftLeft_eq_mul_twoPow]
  exact BitVec.mul_two

theorem shiftLeft_one_toNat (a : Byte) : (a <<< 1).toNat = a.toNat * 2 % 256 := by
  rw [shiftLeft_one_eq_two_mul, BitVec.toNat_mul, mul_comm]
  rfl

/-- 8FY6 shifts its own flag away. -/
theorem lowBitFlag_ushiftRight_one (a : Byte) : lowBitFlag a >>> 1 = 0#8 := by
  apply BitVec.eq_of_toNat_eq
  rw [ushiftRight_one_toNat, lowBitFlag_toNat]
  exact Nat.div_eq_of_lt (Nat.mod_lt _ two_pos)

/-- 8FYE with the raw flag shifts it away. -/
theorem highBitFlag_true_shiftLeft_one (a : Byte) : highBitFlag true a <<< 1 = 0#8 := by
  apply BitVec.eq_of_toNat_eq
  rw [shiftLeft_one_toNat, highBitFlag_true_toNat, BitVec.toNat_zero]
  omega

/-! ### What each instruction writes -/

theorem exec_ldReg (x y : RegIdx) (s : State) : exec (.ldReg x y) s = .next (setV s x (getV s y)) := rfl

theorem exec_orReg (x y : RegIdx) (s : State) :
    exec (.orReg x y) s = .next (setV s x (getV s x ||| getV s y)) := rfl

theorem exec_andReg (x y : RegIdx) (s : State) :
    exec (.andReg x y) s = .next (setV s x (getV s x &&& getV s y)) := rfl

theorem exec_xorReg (x y : RegIdx) (s : State) :
    exec (.xorReg x y) s = .next (setV s x (getV s x ^^^ getV s y)) := rfl

/-- 8XY4 adds the old values, whichever registers they stand in (R135). -/
theorem exec_addReg (x y : RegIdx) (s : State) :
    exec (.addReg x y) s = .next
      (setV (setFlag s (oneIf (255 < (getV s x).toNat + (getV s y).toNat))) x (getV s x + getV s y)) := by
  rw [← carryFlag_eq_oneIf, ← wideSum_setWidth]
  rfl

/-- 8XY5 subtracts on the registers after `VF` holds the flag (R136). -/
theorem exec_subReg {x y : RegIdx} {s : State} {f : Byte} (hf : f = oneIf ((getV s y).toNat < (getV s x).toNat)) :
    exec (.subReg x y) s = .next
      (setV (setFlag s f) x ((if x = 15 then f else getV s x) - (if y = 15 then f else getV s y))) := by
  rw [← getV_setFlag, ← getV_setFlag, hf, ← greaterFlag_eq_oneIf]
  rfl

/-- 8XY7 subtracts on the registers after `VF` holds the flag (R138). -/
theorem exec_subnReg {x y : RegIdx} {s : State} {f : Byte} (hf : f = oneIf ((getV s x).toNat < (getV s y).toNat)) :
    exec (.subnReg x y) s = .next
      (setV (setFlag s f) x ((if y = 15 then f else getV s y) - (if x = 15 then f else getV s x))) := by
  rw [← getV_setFlag, ← getV_setFlag, hf, ← greaterFlag_eq_oneIf]
  rfl

/-- 8XY6 shifts `Vx` after `VF` holds the flag (R137). -/
theorem exec_shr (x y : RegIdx) (s : State) :
    exec (.shr x y) s = .next
      (setV (setFlag s (lowBitFlag (getV s x))) x ((if x = 15 then lowBitFlag (getV s x) else getV s x) >>> 1)) := by
  rw [← getV_setFlag]
  rfl

/-- 8XYE shifts `Vx` after `VF` holds the flag, in the default form and in the raw one (R139). -/
theorem shiftLeft_eq (raw : Bool) (x : RegIdx) (s : State) :
    shiftLeft raw x s = setV (setFlag s (highBitFlag raw (getV s x))) x
      ((if x = 15 then highBitFlag raw (getV s x) else getV s x) <<< 1) := by
  rw [← getV_setFlag]
  rfl

/-- 8XYE runs with the default of `SHL_FLAG_RAW` (D6). -/
theorem exec_shl (x y : RegIdx) (s : State) : exec (.shl x y) s = .next (shiftLeft false x s) := rfl

/-! ### Frames and reads -/

/-- Writing a flag, then a register, changes no other register and nothing outside the register file. -/
theorem setV_setFlag_frame (s : State) (x : RegIdx) (f b : Byte) :
    sameRegistersBut [x, 15] s (setV (setFlag s f) x b) ∧ sameAllButRegisters s (setV (setFlag s f) x b) := by
  refine ⟨fun k hk => ?_, rfl, rfl, rfl, rfl, fun _ => rfl, rfl, rfl⟩
  obtain ⟨hx, hflag⟩ : k ≠ x ∧ k ≠ 15 := by simpa using hk
  rw [getV_setV_ne _ hx, getV_setFlag, if_neg hflag]

theorem getV_shiftLeft (raw : Bool) {x : RegIdx} (hx : x ≠ 15) (s : State) :
    getV (shiftLeft raw x s) x = getV s x <<< 1 := by
  rw [shiftLeft_eq, getV_setV_self, if_neg hx]

theorem getV_flag_shiftLeft (raw : Bool) {x : RegIdx} (hx : x ≠ 15) (s : State) :
    getV (shiftLeft raw x s) 15 = highBitFlag raw (getV s x) := by
  rw [shiftLeft_eq, getV_flag_setV_setFlag s hx.symm]

/-- With `x = 0xF` the flag itself is shifted (D5). -/
theorem getV_shiftLeft_flag (raw : Bool) (s : State) :
    getV (shiftLeft raw 15 s) 15 = highBitFlag raw (getV s 15) <<< 1 := by
  rw [shiftLeft_eq, getV_setV_self, if_pos rfl]

theorem shiftLeft_frame (raw : Bool) (x : RegIdx) (s : State) :
    sameRegistersBut [x, 15] s (shiftLeft raw x s) ∧ sameAllButRegisters s (shiftLeft raw x s) :=
  shiftLeft_eq raw x s ▸ setV_setFlag_frame s x _ _

/-! ### The nine instructions -/

/-- Settles O27: the four instructions write `Vx` alone, so `VF` only when it is `Vx`. -/
theorem moveAndLogicResults : Obligations.MoveAndLogicResults :=
  ⟨fun w h => ⟨decodeWord_ldReg w h, decodeWord_orReg w h, decodeWord_andReg w h, decodeWord_xorReg w h⟩,
    fun x y s =>
      ⟨⟨_, exec_ldReg x y s, getV_setV_self s x _, setV_frame s x _⟩,
        ⟨_, exec_orReg x y s, getV_setV_self s x _, setV_frame s x _⟩,
        ⟨_, exec_andReg x y s, getV_setV_self s x _, setV_frame s x _⟩,
        ⟨_, exec_xorReg x y s, getV_setV_self s x _, setV_frame s x _⟩⟩⟩

/-- Settles O28: the sum is written last, so it is what `VF` holds when `VF` is `Vx`. -/
theorem addWithCarry : Obligations.AddWithCarry := by
  refine ⟨decodeWord_addReg, fun x y s =>
    ⟨_, exec_addReg x y s, ?_, fun hx => getV_flag_setV_setFlag s hx.symm _ _, setV_setFlag_frame s x _ _⟩⟩
  rw [getV_setV_self, BitVec.toNat_add]

/-- Settles O29: the operands of the difference are read after the flag is written. -/
theorem subtractWithFlag : Obligations.SubtractWithFlag :=
  ⟨decodeWord_subReg, fun x _ s f hf =>
    ⟨_, exec_subReg hf, getV_setV_self _ x _, fun hx => getV_flag_setV_setFlag s hx.symm f _,
      setV_setFlag_frame s x f _⟩⟩

/-- Settles O30: as 8XY5, with the operands exchanged. -/
theorem subtractReversedWithFlag : Obligations.SubtractReversedWithFlag :=
  ⟨decodeWord_subnReg, fun x _ s f hf =>
    ⟨_, exec_subnReg hf, getV_setV_self _ x _, fun hx => getV_flag_setV_setFlag s hx.symm f _,
      setV_setFlag_frame s x f _⟩⟩

/-- Settles O31: the flag is bit 0, and with `x = 0xF` that bit is shifted out in turn. -/
theorem shiftRightResult : Obligations.ShiftRightResult := by
  refine ⟨decodeWord_shr, fun x y s => ⟨_, exec_shr x y s, fun hx => ⟨?_, ?_⟩, ?_, setV_setFlag_frame s x _ _⟩⟩
  · rw [getV_setV_self, if_neg hx, ushiftRight_one_toNat]
  · rw [getV_flag_setV_setFlag s hx.symm, lowBitFlag_toNat]
  · rintro rfl
    rw [getV_setV_self, if_pos rfl, lowBitFlag_ushiftRight_one]

/-- Settles O32: one shift with two flags, of which the default one leaves its bit in `VF` twice as large when `x = 0xF`,
and the raw one is shifted out. -/
theorem shiftLeftResult : Obligations.ShiftLeftResult := by
  refine ⟨decodeWord_shl,
    fun x y s => ⟨_, exec_shl x y s, fun hx => ⟨?_, ?_⟩, ?_, shiftLeft_frame false x s⟩,
    fun x s => ⟨fun hx => ⟨?_, ?_⟩, ?_, shiftLeft_frame true x s⟩⟩
  · rw [getV_shiftLeft false hx, shiftLeft_one_toNat]
  · rw [getV_flag_shiftLeft false hx, highBitFlag_false_toNat]
  · rintro rfl
    rw [getV_shiftLeft_flag, shiftLeft_one_toNat, highBitFlag_false_toNat]
    omega
  · rw [getV_shiftLeft true hx, shiftLeft_one_toNat]
  · rw [getV_flag_shiftLeft true hx, highBitFlag_true_toNat]
  · rintro rfl
    rw [getV_shiftLeft_flag, highBitFlag_true_shiftLeft_one]

/-! ### The aliased cells of R141

A cell reads either the last write of its instruction, the flag under a result in another register, or a `VF` that was not
written. -/

section Cells

variable {i : Instr} {s s' : State} {x : RegIdx} {f b v : Byte}

theorem leaves_result (h : exec i s = .next (setV s' x b)) (hv : b = v) : leaves i s x v :=
  ⟨_, h, (getV_setV_self s' x b).trans hv⟩

theorem leaves_flag (h : exec i s = .next (setV (setFlag s f) x b)) (hx : x ≠ 15) (hv : f = v) : leaves i s 15 v :=
  ⟨_, h, (getV_flag_setV_setFlag s hx.symm f b).trans hv⟩

theorem leaves_oldFlag (h : exec i s = .next (setV s x b)) (hx : x ≠ 15) : leaves i s 15 (getV s 15) :=
  ⟨_, h, getV_setV_ne s hx.symm b⟩

end Cells

/-- 8FY6 leaves 0 in `VF`, whatever `y` is. -/
theorem leaves_shr_flag (y : RegIdx) (s : State) : leaves (.shr 15 y) s 15 0#8 :=
  leaves_result (exec_shr 15 y s) (lowBitFlag_ushiftRight_one _)

/-- 8FYE leaves its flag doubled in `VF`, whatever `y` is. -/
theorem leaves_shl_flag (y : RegIdx) (s : State) : leaves (.shl 15 y) s 15 (2#8 * (getV s 15 >>> 7)) :=
  ⟨_, exec_shl 15 y s, by rw [getV_shiftLeft_flag, highBitFlag_false, shiftLeft_one_eq_two_mul]⟩

/-- Settles O33: each cell is one of the two writes of its instruction, in the order of R130. -/
theorem aliasedFlagTable : Obligations.AliasedFlagTable := by
  rintro s k hk _ _ rfl rfl
  refine ⟨⟨?_, ?_, ?_, ?_, ?_, ?_, ?_, ?_, ?_⟩, ⟨?_, ?_, ?_, ?_, ?_, ?_, ?_, ?_, ?_⟩,
    ⟨?_, ?_, ?_, ?_, ?_, ?_, ?_, ?_, ?_⟩, ?_, ?_, ?_, ?_, ?_⟩
  -- `VF`, `y = 0xF` only: the flag, or the old `VF`
  · exact leaves_oldFlag (exec_ldReg k 15 s) hk
  · exact leaves_oldFlag (exec_orReg k 15 s) hk
  · exact leaves_oldFlag (exec_andReg k 15 s) hk
  · exact leaves_oldFlag (exec_xorReg k 15 s) hk
  · exact leaves_flag (exec_addReg k 15 s) hk rfl
  · exact leaves_flag (exec_subReg rfl) hk rfl
  · exact leaves_flag (exec_shr k 15 s) hk rfl
  · exact leaves_flag (exec_subnReg rfl) hk rfl
  · exact ⟨_, exec_shl k 15 s, (getV_flag_shiftLeft false hk s).trans (highBitFlag_false _)⟩
  -- `VF`, `x = 0xF` only: the result, in which only `VF` reads the flag
  · exact leaves_result (exec_ldReg 15 k s) rfl
  · exact leaves_result (exec_orReg 15 k s) rfl
  · exact leaves_result (exec_andReg 15 k s) rfl
  · exact leaves_result (exec_xorReg 15 k s) rfl
  · exact leaves_result (exec_addReg 15 k s) rfl
  · exact leaves_result (exec_subReg rfl) (by rw [if_pos rfl, if_neg hk])
  · exact leaves_shr_flag k s
  · exact leaves_result (exec_subnReg rfl) (by rw [if_pos rfl, if_neg hk])
  · exact leaves_shl_flag k s
  -- `VF`, `x = y = 0xF`: the result, in which both operands read alike
  · exact leaves_result (exec_ldReg 15 15 s) rfl
  · exact leaves_result (exec_orReg 15 15 s) BitVec.or_self
  · exact leaves_result (exec_andReg 15 15 s) BitVec.and_self
  · exact leaves_result (exec_xorReg 15 15 s) BitVec.xor_self
  · exact leaves_result (exec_addReg 15 15 s) BitVec.two_mul.symm
  · exact leaves_result (exec_subReg rfl) (BitVec.sub_self _)
  · exact leaves_shr_flag 15 s
  · exact leaves_result (exec_subnReg rfl) (BitVec.sub_self _)
  · exact leaves_shl_flag 15 s
  -- `Vx`, `y = 0xF` only: the result, in which `VF` reads the flag but for 8XY4
  · exact leaves_result (exec_addReg k 15 s) rfl
  · exact leaves_result (exec_subReg rfl) (by rw [if_neg hk, if_pos rfl])
  · exact leaves_result (exec_shr k 15 s) (by rw [if_neg hk])
  · exact leaves_result (exec_subnReg rfl) (by rw [if_neg hk, if_pos rfl])
  · exact ⟨_, exec_shl k 15 s, (getV_shiftLeft false hk s).trans (shiftLeft_one_eq_two_mul _)⟩

end Sys2Proof.Machine

/-! # The display (spec/44_display.md R150 to R157)

A draw inverts a set of cells, a `Pattern`. `Plots p s t` says what inverting the cells of `p` does to the framebuffer and
to `VF`. Disjoint patterns compose, so the pattern of a pixel gives the pattern of a row, and the rows give the sprite's. -/

namespace Sys2Proof.Machine

/-! ### Clearing (R150) -/

/-- Clearing the framebuffer changes nothing else. -/
theorem clearFb_frame (s : State) : sameRegistersBut [] s (clearFb s) ∧ sameAllButDisplay s (clearFb s) :=
  ⟨fun k _ => getV_clearFb s k, rfl, rfl, rfl, fun _ => rfl, rfl, rfl⟩

/-- Settles O36: the clear is the instruction's one write. -/
theorem clearMakesEveryCellFalse : Obligations.ClearMakesEveryCellFalse :=
  ⟨rfl, fun s => ⟨_, rfl, fun x y _ _ => getCell_clearFb s x y, clearFb_frame s⟩⟩

/-! ### When a draw completes (R154, R156) -/

/-- The rows from `row` on that pass the height test are all inside memory exactly when the loop over them ends. -/
theorem drawRows_completes_iff (x0 y0 left row : Nat) (s : State) :
    (∃ t, drawRows x0 y0 left row s = .ok t) ↔
      ∀ r, row ≤ r → r < row + left → y0 + r < 32 → s.I.toNat + r ≤ 4095 := by
  induction left generalizing row s with
  | zero => exact iff_of_true ⟨s, rfl⟩ (by omega)
  | succ left ih =>
    rw [drawRows_succ]
    split
    case isTrue hbottom => exact iff_of_true ⟨s, rfl⟩ (by omega)
    case isFalse hbottom =>
      split
      case isTrue hmem =>
        rw [ih, (plotRow_frame _ x0 _ 8 0 s).I]
        refine ⟨fun h r hr hlt hy => ?_, fun h r hr hlt hy => h r (by omega) (by omega) hy⟩
        obtain rfl | hne := eq_or_ne r row
        · exact hmem
        · exact h r (by omega) (by omega) hy
      case isFalse hmem =>
        exact iff_of_false (by simp) fun h => hmem (h row le_rfl (by omega) (by omega))

/-- A draw completes exactly when it is in bounds. -/
theorem exec_drw_completes_iff (x y : RegIdx) (n : Nibble) (s : State) :
    (∃ t, exec (.drw x y n) s = .next t) ↔ drawInBounds s y n := by
  change (∃ t, finish (drawRows (spriteColumn s x) (spriteRow s y) n.toNat 0 (setFlag s 0#8)) = .next t) ↔ _
  simp only [finish_eq_next, drawRows_completes_iff, Nat.zero_le, true_implies, Nat.zero_add]
  rfl

/-- A draw that does not complete raises `MemoryOutOfBounds`. -/
theorem exec_drw_eq_fault {x y : RegIdx} {n : Nibble} {s : State} (h : ¬ ∃ t, exec (.drw x y n) s = .next t) :
    exec (.drw x y n) s = .fault .memoryOutOfBounds := by
  cases hexec : exec (.drw x y n) s with
  | next t => exact absurd ⟨t, hexec⟩ h
  | fault f => rw [drawRows_fault (finish_eq_fault.1 hexec)]
  | refused q => exact absurd hexec (exec_ne_refused _ s q)

/-- Settles O37: the loop over the rows ends exactly in bounds, and has one fault. -/
theorem drawBoundsExactly : Obligations.DrawBoundsExactly := fun x y n s =>
  ⟨(exec_drw_completes_iff x y n s).2, fun h => exec_drw_eq_fault (mt (exec_drw_completes_iff x y n s).1 h)⟩

/-! ### Inverting a pattern of cells -/

/-- A set of cells, by column and row. -/
abbrev Pattern := Nat → Nat → Bool

/-- Some cell of the pattern that is on the grid holds `b`. -/
def Pattern.Meets (p : Pattern) (b : Bool) (s : State) : Prop :=
  ∃ cx cy, cx < 64 ∧ cy < 32 ∧ p cx cy = true ∧ getCell s cx cy = b

theorem Pattern.meets_or {p q : Pattern} {b : Bool} {s : State} :
    Pattern.Meets (fun cx cy => p cx cy || q cx cy) b s ↔ p.Meets b s ∨ q.Meets b s := by
  simp only [Pattern.Meets, Bool.or_eq_true, or_and_right, and_or_left, exists_or]

/-- From `s` to `t` the cells of the pattern that are on the grid are inverted, and `VF` becomes 1 when one of them was on
and is kept otherwise (R152, R153). -/
structure Plots (p : Pattern) (s t : State) : Prop where
  cell : ∀ cx cy, cx < 64 → cy < 32 → getCell t cx cy = (getCell s cx cy ^^ p cx cy)
  flag_hit : p.Meets true s → getV t 15 = 1#8
  flag_miss : ¬ p.Meets true s → getV t 15 = getV s 15

namespace Plots

variable {p q : Pattern} {s t u : State}

/-- Only the cells of the grid count, so a pattern can be replaced by one that agrees with it there. -/
theorem congr (h : Plots p s t) (hq : ∀ cx cy, cx < 64 → cy < 32 → q cx cy = p cx cy) : Plots q s t := by
  have hmeets : q.Meets true s ↔ p.Meets true s :=
    exists₂_congr fun cx cy => and_congr_right fun hx => and_congr_right fun hy => by rw [hq cx cy hx hy]
  exact ⟨fun cx cy hx hy => by rw [h.cell cx cy hx hy, hq cx cy hx hy], fun hm => h.flag_hit (hmeets.1 hm),
    fun hm => h.flag_miss (mt hmeets.2 hm)⟩

/-- Inverting no cell of the grid changes nothing. -/
theorem refl (s : State) (hp : ∀ cx cy, cx < 64 → cy < 32 → ¬ p cx cy = true) : Plots p s s where
  cell cx cy hx hy := by rw [Bool.eq_false_of_not_eq_true (hp cx cy hx hy), Bool.xor_false]
  flag_hit := fun ⟨cx, cy, hx, hy, hset, _⟩ => absurd hset (hp cx cy hx hy)
  flag_miss _ := rfl

/-- Inverting one pattern and then a disjoint one is inverting both: the first changed no cell of the second. -/
theorem trans (h : Plots p s t) (h' : Plots q t u) (hdisj : ∀ cx cy, q cx cy = true → ¬ p cx cy = true) :
    Plots (fun cx cy => p cx cy || q cx cy) s u := by
  have hp : ∀ {cx cy}, q cx cy = true → p cx cy = false := fun hset => Bool.eq_false_of_not_eq_true (hdisj _ _ hset)
  have hmeets : q.Meets true t ↔ q.Meets true s :=
    exists₂_congr fun cx cy => and_congr_right fun hx => and_congr_right fun hy => and_congr_right fun hset => by
      rw [h.cell cx cy hx hy, hp hset, Bool.xor_false]
  refine ⟨fun cx cy hx hy => ?_, fun hm => ?_, fun hmiss => ?_⟩
  · rw [h'.cell cx cy hx hy, h.cell cx cy hx hy]
    cases hset : q cx cy with
    | false => rw [Bool.xor_false, Bool.or_false]
    | true => rw [hp hset, Bool.xor_false, Bool.false_or]
  · by_cases hq : q.Meets true s
    · exact h'.flag_hit (hmeets.2 hq)
    · rw [h'.flag_miss (mt hmeets.1 hq)]
      exact h.flag_hit ((Pattern.meets_or.1 hm).resolve_right hq)
  · obtain ⟨hmissp, hmissq⟩ := not_or.1 (mt Pattern.meets_or.2 hmiss)
    rw [h'.flag_miss (mt hmeets.1 hmissq), h.flag_miss hmissp]

end Plots

/-! ### The pattern of a pixel, of a row and of a sprite -/

/-- The one cell `(x, y)`. -/
def pixelPattern (x y : Nat) : Pattern := fun cx cy => decide (cx = x ∧ cy = y)

/-- The set bits of a sprite row in its columns from `col` on, `left` of them; column 0 is bit 7 (R152). -/
def rowPattern (b : Byte) (x0 y left col : Nat) : Pattern := fun cx cy =>
  decide (cy = y ∧ x0 + col ≤ cx ∧ cx < x0 + col + left) && b.getLsbD (7 - (cx - x0))

/-- The set bits of the sprite at `I` in its rows from `row` on, `left` of them. -/
def rowsPattern (s : State) (x0 y0 left row : Nat) : Pattern := fun cx cy =>
  decide (x0 ≤ cx ∧ cx < x0 + 8 ∧ y0 + row ≤ cy ∧ cy < y0 + row + left) &&
    (s.mem.read (s.I.toNat + (cy - y0))).getLsbD (7 - (cx - x0))

theorem pixelPattern_eq_true {x y cx cy : Nat} : pixelPattern x y cx cy = true ↔ cx = x ∧ cy = y := decide_eq_true_iff

theorem rowPattern_eq_true {b : Byte} {x0 y left col cx cy : Nat} :
    rowPattern b x0 y left col cx cy = true ↔
      (cy = y ∧ x0 + col ≤ cx ∧ cx < x0 + col + left) ∧ b.getLsbD (7 - (cx - x0)) = true := by
  rw [rowPattern, Bool.and_eq_true, decide_eq_true_iff]

theorem rowsPattern_eq_true {s : State} {x0 y0 left row cx cy : Nat} :
    rowsPattern s x0 y0 left row cx cy = true ↔
      (x0 ≤ cx ∧ cx < x0 + 8 ∧ y0 + row ≤ cy ∧ cy < y0 + row + left) ∧
        (s.mem.read (s.I.toNat + (cy - y0))).getLsbD (7 - (cx - x0)) = true := by
  rw [rowsPattern, Bool.and_eq_true, decide_eq_true_iff]

/-- The first column of a row is the pixel of its bit. -/
theorem rowPattern_one (b : Byte) (x0 y col cx cy : Nat) :
    rowPattern b x0 y 1 col cx cy = (b.getLsbD (7 - col) && pixelPattern (x0 + col) y cx cy) := by
  rw [Bool.eq_iff_iff, Bool.and_eq_true, rowPattern_eq_true, pixelPattern_eq_true, and_comm]
  by_cases hcol : cx = x0 + col
  · subst hcol
    rw [Nat.add_sub_cancel_left]
    exact and_congr_right fun _ => by omega
  · exact iff_of_false (by omega) (by omega)

theorem rowPattern_succ (b : Byte) (x0 y left col cx cy : Nat) :
    rowPattern b x0 y (left + 1) col cx cy =
      (rowPattern b x0 y 1 col cx cy || rowPattern b x0 y left (col + 1) cx cy) := by
  rw [Bool.eq_iff_iff, Bool.or_eq_true, rowPattern_eq_true, rowPattern_eq_true, rowPattern_eq_true, ← or_and_right]
  exact and_congr_left fun _ => by omega

/-- The first of the rows shows the byte at `I + row`. -/
theorem rowsPattern_succ (s : State) (x0 y0 left row cx cy : Nat) :
    rowsPattern s x0 y0 (left + 1) row cx cy =
      (rowPattern (s.mem.read (s.I.toNat + row)) x0 (y0 + row) 8 0 cx cy || rowsPattern s x0 y0 left (row + 1) cx cy) := by
  rw [Bool.eq_iff_iff, Bool.or_eq_true, rowPattern_eq_true, rowsPattern_eq_true, rowsPattern_eq_true]
  by_cases hrow : cy = y0 + row
  · subst hrow
    rw [Nat.add_sub_cancel_left, ← or_and_right]
    exact and_congr_left fun _ => by omega
  · rw [or_iff_right (by omega)]
    exact and_congr_left fun _ => by omega

/-- A draw changes neither the sprite's bytes nor where they are. -/
theorem rowsPattern_of_frame {s t : State} (h : DrawFrame s t) (x0 y0 left row : Nat) :
    rowsPattern t x0 y0 left row = rowsPattern s x0 y0 left row := by
  unfold rowsPattern
  rw [h.mem, h.I]

/-! ### What each part of the sprite loop inverts -/

theorem plotPixel_plots {x y : Nat} (hx : x < 64) (hy : y < 32) (s : State) :
    Plots (pixelPattern x y) s (plotPixel x y s) := by
  have hmeets : (pixelPattern x y).Meets true s ↔ getCell s x y = true := by
    constructor
    · rintro ⟨cx, cy, -, -, hset, hon⟩
      obtain ⟨rfl, rfl⟩ := pixelPattern_eq_true.1 hset
      exact hon
    · exact fun hon => ⟨x, y, hx, hy, pixelPattern_eq_true.2 ⟨rfl, rfl⟩, hon⟩
  refine ⟨fun cx cy hcx _ => getCell_plotPixel s hx hy hcx, fun hm => ?_, fun hm => ?_⟩
  · rw [getV_flag_plotPixel, if_pos (hmeets.1 hm)]
  · rw [getV_flag_plotPixel, if_neg (mt hmeets.2 hm)]

/-- One column of a sprite row: its cell is inverted when its bit is set. -/
theorem plotColumn_plots (b : Byte) {x0 y col : Nat} (hx : x0 + col < 64) (hy : y < 32) (s : State) :
    Plots (rowPattern b x0 y 1 col) s (if b.getLsbD (7 - col) then plotPixel (x0 + col) y s else s) := by
  split
  case isTrue hbit =>
    exact (plotPixel_plots hx hy s).congr fun cx cy _ _ => by rw [rowPattern_one, hbit, Bool.true_and]
  case isFalse hbit =>
    exact Plots.refl s fun cx cy _ _ hset => hbit ((Bool.and_eq_true_iff.1 (rowPattern_one .. ▸ hset)).1)

/-- A row is clipped at the right edge: what the loop leaves out is not on the grid (R155). -/
theorem plotRow_plots (b : Byte) (x0 : Nat) {y : Nat} (hy : y < 32) (left col : Nat) (s : State) :
    Plots (rowPattern b x0 y left col) s (plotRow b x0 y left col s) := by
  induction left generalizing col s with
  | zero => exact Plots.refl s fun cx cy _ _ => by rw [rowPattern_eq_true]; omega
  | succ left ih =>
    unfold plotRow
    split
    case isTrue hedge =>
      have hoff : 64 ≤ x0 + col := hedge
      exact Plots.refl s fun cx cy _ _ => by rw [rowPattern_eq_true]; omega
    case isFalse hedge =>
      refine ((plotColumn_plots b (not_le.1 hedge) hy s).trans (ih (col + 1) _) fun cx cy => ?_).congr
        fun cx cy _ _ => rowPattern_succ b x0 y left col cx cy
      rw [rowPattern_eq_true, rowPattern_eq_true]
      omega

/-- The rows are clipped at the bottom edge, and every row reads the sprite of the state the draw began in (R152, R156). -/
theorem drawRows_plots {x0 y0 left row : Nat} {s t : State} (h : drawRows x0 y0 left row s = .ok t) :
    Plots (rowsPattern s x0 y0 left row) s t := by
  induction left generalizing row s with
  | zero =>
    obtain rfl := Except.ok.inj h
    exact Plots.refl s fun cx cy _ _ => by rw [rowsPattern_eq_true]; omega
  | succ left ih =>
    rw [drawRows_succ] at h
    split at h
    case isTrue hbottom =>
      obtain rfl := Except.ok.inj h
      exact Plots.refl s fun cx cy _ _ => by rw [rowsPattern_eq_true]; omega
    case isFalse hbottom =>
      split at h
      case isFalse => nomatch h
      case isTrue =>
        have hrest := ih h
        rw [rowsPattern_of_frame (plotRow_frame ..)] at hrest
        refine ((plotRow_plots _ x0 (not_le.1 hbottom) 8 0 s).trans hrest fun cx cy => ?_).congr
          fun cx cy _ _ => rowsPattern_succ s x0 y0 left row cx cy
        rw [rowsPattern_eq_true, rowPattern_eq_true]
        omega

/-! ### The whole draw (R151) -/

section Draw

variable {x y : RegIdx} {n : Nibble} {s t : State}

/-- The sprite's pattern is that of its `n` rows from the first, whatever `VF` holds. -/
theorem rowsPattern_sprite (x y : RegIdx) (n : Nibble) (s : State) (f : Byte) :
    rowsPattern (setFlag s f) (spriteColumn s x) (spriteRow s y) (rowCount n) 0 = spriteBit s x y n := rfl

/-- A draw that completes has inverted the sprite's cells, from `VF` 0 on. -/
theorem exec_drw_plots (h : exec (.drw x y n) s = .next t) : Plots (spriteBit s x y n) (setFlag s 0#8) t :=
  rowsPattern_sprite x y n s 0#8 ▸ drawRows_plots (finish_eq_next.1 h)

theorem getCell_exec_drw (h : exec (.drw x y n) s = .next t) {cx cy : Nat} (hx : cx < 64) (hy : cy < 32) :
    getCell t cx cy = (getCell s cx cy ^^ spriteBit s x y n cx cy) :=
  (exec_drw_plots h).cell cx cy hx hy

theorem getV_flag_exec_drw_of_hit (h : exec (.drw x y n) s = .next t) (hm : spriteMeets true s x y n) :
    getV t 15 = 1#8 :=
  (exec_drw_plots h).flag_hit hm

theorem getV_flag_exec_drw_of_miss (h : exec (.drw x y n) s = .next t) (hm : ¬ spriteMeets true s x y n) :
    getV t 15 = 0#8 :=
  ((exec_drw_plots h).flag_miss hm).trans (getV_setV_self s 15 0#8)

theorem DrawFrame.same (h : DrawFrame s t) : sameRegistersBut [15] s t ∧ sameAllButDisplay s t :=
  ⟨fun k hk => h.V k (List.ne_of_not_mem_cons hk), h.I, h.pc, h.stack, sameMemory_of_mem_eq h.mem, h.DT, h.ST⟩

/-! ### A second draw (R152) -/

/-- A draw with coordinates that are not in `VF` is in bounds again after a draw. -/
theorem drawInBounds_of_frame (h : DrawFrame s t) (hy : y ≠ 15) : drawInBounds t y n ↔ drawInBounds s y n := by
  unfold drawInBounds
  rw [h.V y hy, h.I]

/-- With coordinates that are not in `VF`, a draw leaves the sprite where it was. -/
theorem spriteBit_of_frame (h : DrawFrame s t) (hx : x ≠ 15) (hy : y ≠ 15) (n : Nibble) :
    spriteBit t x y n = spriteBit s x y n := by
  unfold spriteBit
  rw [h.V x hx, h.V y hy, h.I, h.mem]

/-- After a draw the lit cells under the sprite are those that were off before it. -/
theorem spriteMeets_after_draw (h : exec (.drw x y n) s = .next t) (hx : x ≠ 15) (hy : y ≠ 15) :
    spriteMeets true t x y n ↔ spriteMeets false s x y n := by
  unfold spriteMeets
  rw [spriteBit_of_frame (exec_drw_frame h) hx hy]
  refine exists₂_congr fun cx cy => and_congr_right fun hcx => and_congr_right fun hcy => and_congr_right fun hset => ?_
  rw [getCell_exec_drw h hcx hcy, hset, Bool.xor_true, Bool.not_eq_true']

end Draw

/-- Settles O38: the sprite's cells are inverted, and a draw's frame is everything but the framebuffer and `VF`. -/
theorem drawXorsSprite : Obligations.DrawXorsSprite := by
  refine ⟨decodeWord_drw, fun x y n s hbounds => ?_⟩
  obtain ⟨t, h⟩ := (exec_drw_completes_iff x y n s).2 hbounds
  exact ⟨t, h, fun _ _ hx hy => getCell_exec_drw h hx hy, getV_flag_exec_drw_of_hit h, getV_flag_exec_drw_of_miss h,
    (exec_drw_frame h).same⟩

/-- Settles O39: the second draw inverts the same cells, and meets the lit ones, which the first turned on. -/
theorem drawTwiceRestores : Obligations.DrawTwiceRestores := by
  intro x y n s t hx hy h
  have hframe := exec_drw_frame h
  obtain ⟨u, hu⟩ := (exec_drw_completes_iff x y n t).2
    ((drawInBounds_of_frame hframe hy).2 ((exec_drw_completes_iff x y n s).1 ⟨t, h⟩))
  have hmeets := spriteMeets_after_draw h hx hy
  refine ⟨u, hu, fb_ext fun cx cy hcx hcy => ?_, fun hm => getV_flag_exec_drw_of_hit hu (hmeets.2 hm),
    fun hm => getV_flag_exec_drw_of_miss hu (mt hmeets.1 hm)⟩
  rw [getCell_exec_drw hu hcx hcy, spriteBit_of_frame hframe hx hy, getCell_exec_drw h hcx hcy, Bool.xor_assoc,
    Bool.xor_self, Bool.xor_false]

end Sys2Proof.Machine

/-! # The reserved groups and the illegal words (spec/45_reserved_groups.md R160, R161)

A word raises `UnimplementedOpcode` in one of two ways: the decoder refuses it, or it decodes to one of the two reserved
rows. Both are the words that match no row of R74, since an instruction that is well-formed never raises that fault. -/

namespace Sys2Proof.Machine

theorem exec_illegalGroupE (low : Addr12) (s : State) : exec (.illegalGroupE low) s = .fault .unimplementedOpcode := rfl

theorem exec_illegalGroupF (low : Addr12) (s : State) : exec (.illegalGroupF low) s = .fault .unimplementedOpcode := rfl

/-- Settles O12: the decoder sends each group to its reserved row, and both rows raise the fault. -/
theorem reservedGroupsFault : Obligations.ReservedGroupsFault :=
  ⟨decodeWord_illegalGroupE, decodeWord_illegalGroupF, exec_illegalGroupE, exec_illegalGroupF⟩

/-- Of all instructions exactly the two reserved rows raise `UnimplementedOpcode`: the other faults of an instruction are
those of 00EE (R100) and DXYN (R154). -/
theorem exec_eq_unimplementedOpcode_iff (i : Instr) (s : State) :
    exec i s = .fault .unimplementedOpcode ↔ i.wellFormed = false := by
  cases i with
  | illegalGroupE low => exact iff_of_true (exec_illegalGroupE low s) rfl
  | illegalGroupF low => exact iff_of_true (exec_illegalGroupF low s) rfl
  | ret =>
    refine iff_of_false ?_ nofun
    cases hstack : s.stack with
    | nil => exact exec_ret_of_stack_nil hstack ▸ nofun
    | cons a rest => exact exec_ret_of_stack_cons hstack ▸ nofun
  | drw x y n => exact iff_of_false (fun h => nomatch drawRows_fault (finish_eq_fault.1 h)) nofun
  | _ => exact iff_of_false nofun nofun

/-- A word that decodes matches a row of R74 exactly when its instruction is one of the 23. -/
theorem legalWord_eq_wellFormed {w : Word} {i : Instr} (h : decodeWord w = .ok i) : legalWord w = i.wellFormed := by
  cases hwf : i.wellFormed with
  | true => exact legalWord_of_decodeWord h hwf
  | false =>
    have hgroup := encode_of_decodeWord h ▸ fieldFirst_encode_of_not_wellFormed hwf
    exact legalWord_eq_false_of_illegalSpace (.inr (.inr (.inr (.inr hgroup))))

theorem step_of_decodeWord_error {s : State} {r : Reject} (hfetch : s.canFetch) (h : decodeWord s.nextWord = .error r) :
    step s = .fault .unimplementedOpcode := by
  rw [step_of_canFetch hfetch, h]
  rfl

/-- Settles O11: a word that the decoder refuses is illegal and faults, and one that decodes is illegal and faults exactly
when its instruction is a reserved row. -/
theorem illegalWordFaults : Obligations.IllegalWordFaults := by
  intro s hfetch
  cases hd : decodeWord s.nextWord with
  | error r =>
    exact iff_of_true (step_of_decodeWord_error hfetch hd)
      (legalWord_eq_false_of_illegalSpace (illegalSpace_of_decodeWord hd))
  | ok i =>
    rw [step_of_executes ⟨hfetch, hd⟩, legalWord_eq_wellFormed hd]
    exact exec_eq_unimplementedOpcode_iff i (advancePc s)

end Sys2Proof.Machine

/-! # Faults, construction errors and the host's operations (spec/60_exceptions.md R170 to R184)

A step can fault at the fetch, at the decoding or in its instruction, whose faults `exec_eq_fault_iff` lists. A fault ends
the engine: no operation runs on it any more. -/

namespace Sys2Proof.Machine

/-! ### What can fault, and in which order (R170, R173, R174, R176, R177) -/

theorem exec_ret_eq_fault_iff {s : State} {f : Fault} :
    exec .ret s = .fault f ↔ s.stack = [] ∧ f = .stackUnderflow := by
  cases hstack : s.stack with
  | nil => simp [exec_ret_of_stack_nil hstack, eq_comm]
  | cons a rest => simp [exec_ret_of_stack_cons hstack]

theorem exec_drw_eq_fault_iff {x y : RegIdx} {n : Nibble} {s : State} {f : Fault} :
    exec (.drw x y n) s = .fault f ↔ ¬ drawInBounds s y n ∧ f = .memoryOutOfBounds := by
  by_cases hbounds : drawInBounds s y n
  · obtain ⟨t, ht⟩ := (drawBoundsExactly x y n s).1 hbounds
    simp [ht, hbounds]
  · simp [(drawBoundsExactly x y n s).2 hbounds, hbounds, eq_comm]

/-- Every fault of an instruction: a reserved row has `UnimplementedOpcode` (R176), 00EE on an empty stack
`StackUnderflow` (R174), and DXYN with a row outside memory `MemoryOutOfBounds` (R173, R154). -/
theorem exec_eq_fault_iff {i : Instr} {s : State} {f : Fault} :
    exec i s = .fault f ↔
      (i.wellFormed = false ∧ f = .unimplementedOpcode) ∨
      (i = .ret ∧ s.stack = [] ∧ f = .stackUnderflow) ∨
      (∃ x y n, i = .drw x y n ∧ ¬ drawInBounds s y n ∧ f = .memoryOutOfBounds) := by
  cases i with
  | ret => simp [exec_ret_eq_fault_iff, Instr.wellFormed]
  | drw x y n => simp [exec_drw_eq_fault_iff, Instr.wellFormed]
  | illegalGroupE low | illegalGroupF low => simp [exec_illegalGroupE, exec_illegalGroupF, Instr.wellFormed, eq_comm]
  | _ => exact iff_of_false nofun (by simp [Instr.wellFormed])

theorem pc_le_of_canFetch {s : State} (h : s.canFetch) : s.pc.toNat ≤ 4094 :=
  Nat.le_of_lt_succ (Nat.lt_of_succ_lt_succ h)

/-- A state is about to execute at most one instruction, the one that its word decodes to. -/
theorem executes_iff_eq {s : State} {i j : Instr} (h : s.executes i) : s.executes j ↔ i = j := by
  simp [State.executes, h.1, h.2]

theorem not_executes_of_decodeWord_error {s : State} {r : Reject} (h : decodeWord s.nextWord = .error r) (i : Instr) :
    ¬ s.executes i := fun hi => nomatch h.symm.trans hi.2

/-- Settles O13, along the step: the fetch, then the decoding, then the faults of the instruction. -/
theorem stepFaultsExactly : Obligations.StepFaultsExactly := by
  intro s f
  obtain hpc | hpc := le_or_gt s.pc.toNat 4094
  · have hfetch := canFetch_of_pc_le hpc
    cases hd : decodeWord s.nextWord with
    | error r =>
      have hlegal := legalWord_eq_false_of_illegalSpace (illegalSpace_of_decodeWord hd)
      simp [step_of_decodeWord_error hfetch hd, not_executes_of_decodeWord_error hd, hlegal, hpc, eq_comm]
    | ok i =>
      have hi : s.executes i := ⟨hfetch, hd⟩
      have hbounds : ∀ y n, drawInBounds (advancePc s) y n ↔ drawInBounds s y n := fun _ _ => Iff.rfl
      simp [step_of_executes hi, exec_eq_fault_iff, executes_iff_eq hi, legalWord_eq_wellFormed hd, hbounds, hpc]
  · have hnone : ∀ i, ¬ s.executes i := fun _ hi => hpc.not_ge (pc_le_of_canFetch hi.1)
    simp [fetchOutsideMemoryFaults s hpc, hnone, hpc, hpc.not_ge, @eq_comm Fault]

/-! ### Construction (R175) -/

/-- Settles O44: construction decides by the length, and what it builds holds the whole image. -/
theorem oversizeImageFaults : Obligations.OversizeImageFaults := fun rom =>
  ⟨construct_of_lt, fun h => ⟨State.ofImage rom, construct_of_le h, fun _ _ => read_ofImage_of_getElem?⟩⟩

/-! ### The timers (R184) -/

theorem decTimer_toNat (t : Byte) : (decTimer t).toNat = t.toNat - 1 := by
  unfold decTimer
  split
  case isTrue hzero => simp [hzero]
  case isFalse hne => bv_omega

theorem decDelay_of_DT_eq_zero {s : State} (h : s.DT = 0#8) : decDelay s = s := by
  simp [decDelay, decTimer, ← h]

theorem decSound_of_ST_eq_zero {s : State} (h : s.ST = 0#8) : decSound s = s := by
  simp [decSound, decTimer, ← h]

/-- Settles O46: a decrement writes its own timer, and both timers of a state with the invariant are 0. -/
theorem timerDecrements : Obligations.TimerDecrements := fun s =>
  ⟨⟨decDelay s, rfl, decTimer_toNat s.DT, rfl⟩, ⟨decSound s, rfl, decTimer_toNat s.ST, rfl⟩, fun hs =>
    ⟨congrArg _ (decDelay_of_DT_eq_zero hs.DT_zero), congrArg _ (decSound_of_ST_eq_zero hs.ST_zero)⟩⟩

/-! ### The engine (R171, R172) -/

theorem Engine.perform_running_of_fault {op : HostOp} {s : State} {f : Fault} (h : op.run s = .fault f) :
    Engine.perform op (.running s) = .next (.faulted f) := by
  simp [Engine.perform, h]

theorem Engine.perform_running_of_next {op : HostOp} {s t : State} (h : op.run s = .next t) :
    Engine.perform op (.running s) = .next (.running t) := by
  simp [Engine.perform, h]

/-- Settles O47: an operation leaves the engine that its outcome says, and a decrement always gives a next state. -/
theorem faultedEngineRefuses : Obligations.FaultedEngineRefuses :=
  ⟨fun _ _ => rfl, fun _ _ _ => Engine.perform_running_of_fault, fun _ _ _ => Engine.perform_running_of_next,
    fun _ _ => rfl, fun s =>
      ⟨⟨decDelay s, Engine.perform_running_of_next rfl⟩, ⟨decSound s, Engine.perform_running_of_next rfl⟩⟩⟩

end Sys2Proof.Machine
